-- ==== Sys2Proof/Word.lean ====
section
/-! DEFINITION. The machine's only data width, the 16-bit Word, with its unsigned view `u`, its signed view `s`
and the constructor `W` from an integer (spec/00_scope.md R8, spec/10_state.md R20). -/

namespace Sys2Proof

/-- "16 bits of value, no identity beyond its bits" (R20). -/
abbrev Word := BitVec 16

/-- `u(v)`: the Word as an unsigned integer 0 to 65535 (R8). -/
def uview (v : Word) : Int := (v.toNat : Int)

/-- `s(v)`: `u(v)` when bit 15 is 0, else `u(v) - 65536` (R8). -/
def sview (v : Word) : Int := if v.getLsbD 15 then uview v - 65536 else uview v

/-- `W(n)`: the Word `n mod 65536`, for any integer n (R8). -/
def toWord (n : Int) : Word := BitVec.ofInt 16 n

end Sys2Proof
end

