-- ==== Sys2Proof/Syntax.lean ====
section
/-! DEFINITION. The instructions: one constructor per row of spec/opcode_table.json (25 instructions of
spec/30_encoding.md R95 and the halt word), with the operands R88 lists for each. -/

namespace Sys2Proof

/-- The eight general registers `r0` to `r7` (R21). Every 3-bit field value names one. -/
inductive Reg where
  | r0 | r1 | r2 | r3 | r4 | r5 | r6 | r7
  deriving DecidableEq, Repr

/-- A decoded instruction (R88, R95). Immediates are the sign-extended integers of R85. -/
inductive Instr where
  /-- `add rd, rs1, rs2` (R161) -/
  | add (rd rs1 rs2 : Reg)
  /-- `sub rd, rs1, rs2` (R162) -/
  | sub (rd rs1 rs2 : Reg)
  /-- `and rd, rs1, rs2` (R163) -/
  | and (rd rs1 rs2 : Reg)
  /-- `or rd, rs1, rs2` (R164) -/
  | or (rd rs1 rs2 : Reg)
  /-- `not rd, rs1` (R165); the rs2 field is no operand -/
  | not (rd rs1 : Reg)
  /-- `mul rd, rs1, rs2` (R166) -/
  | mul (rd rs1 rs2 : Reg)
  /-- `div rd, rs1, rs2` (R167) -/
  | div (rd rs1 rs2 : Reg)
  /-- `mod rd, rs1, rs2` (R168) -/
  | mod (rd rs1 rs2 : Reg)
  /-- `jalr rd, rs1` (R180): rd holds the target, rs1 receives the link -/
  | jalr (rd rs1 : Reg)
  /-- `in rd` (R185); `in` is a word of Lean's own -/
  | inp (rd : Reg)
  /-- `addi rd, rs1, imm6` (R200) -/
  | addi (rd rs1 : Reg) (imm : Int)
  /-- `shf rd, rs1, imm6` (R201) -/
  | shf (rd rs1 : Reg) (imm : Int)
  /-- `lw rd, rs1, imm6` (R211) -/
  | lw (rd rs1 : Reg) (imm : Int)
  /-- `sw rd, rs1, imm6` (R212): rd is the source of the data -/
  | sw (rd rs1 : Reg) (imm : Int)
  /-- `lli rd, imm8` (R220) -/
  | lli (rd : Reg) (imm : Int)
  /-- `lui rd, imm8` (R221) -/
  | lui (rd : Reg) (imm : Int)
  /-- `beq rd, imm8` (R231) -/
  | beq (rd : Reg) (imm : Int)
  /-- `bne rd, imm8` (R232) -/
  | bne (rd : Reg) (imm : Int)
  /-- `bgt rd, imm8` (R233) -/
  | bgt (rd : Reg) (imm : Int)
  /-- `bge rd, imm8` (R234) -/
  | bge (rd : Reg) (imm : Int)
  /-- `blt rd, imm8` (R235) -/
  | blt (rd : Reg) (imm : Int)
  /-- `ble rd, imm8` (R236) -/
  | ble (rd : Reg) (imm : Int)
  /-- `out rd` (R186, R187) -/
  | out (rd : Reg)
  /-- `outs rd` (R186, R188) -/
  | outs (rd : Reg)
  /-- `outn rd` (R186, R189) -/
  | outn (rd : Reg)
  /-- the halt sentinel, the word `0xF000` (R91, R135) -/
  | halt
  deriving DecidableEq, Repr

/-- The three instruction wire formats (R81 to R83). -/
inductive Format where
  | r | imm6 | imm8
  deriving DecidableEq, Repr

/-- The named bit fields of an instruction word (R84). -/
inductive Field where
  | opcode | rd | rs1 | rs2 | subfunc | imm6 | imm8
  deriving DecidableEq, Repr

end Sys2Proof
end

