-- ==== Sys2Proof/Config.lean ====
section
/-! DEFINITION. The implementation parameters of spec/00_scope.md R7 as a record, what makes a choice of them
legal, and the free values: constants without a body, of which nothing can be proved. The values the spec takes
stand in Decode.lean (`config`). -/

namespace Sys2Proof

/-- The sixteen opcode groups of R95 (`inp` is the group `in`). -/
inductive OpGroup where
  | math | jalr | inp | addi | shf | lw | sw | lli | lui | beq | bne | bgt | bge | blt | ble | out
  deriving DecidableEq, Repr

/-- The eight members of the math group (R96). -/
inductive MathOp where
  | add | sub | and | or | not | mul | div | mod
  deriving DecidableEq, Repr

/-- The three members of the out family (R97). -/
inductive OutOp where
  | out | outs | outn
  deriving DecidableEq, Repr

/-- The numbers of the codec: `OPMAP`, `MATHFN` and `OUTFN` (R7, decisions D1 to D3). -/
structure Codec where
  opMap : OpGroup → BitVec 4
  mathFn : MathOp → BitVec 3
  outFn : OutOp → BitVec 3

/-- `DIVMOD`: rounding of the quotient (R7, D8). The spec names truncation; `floor` is the other common choice
and is taken by no rule. -/
inductive DivMode where
  | truncate | floor
  deriving DecidableEq, Repr

/-- `DIVZERO`: what a zero divisor does (R7, D9). The spec takes `fault`; `freeResult` lets the instruction run
with a value that nothing constrains. -/
inductive DivZeroMode where
  | fault | freeResult
  deriving DecidableEq, Repr

/-- `SHFRIGHT`: the bits a right shift brings in (R7, D10). -/
inductive ShiftFill where
  | zeros | sign
  deriving DecidableEq, Repr

/-- The parameters of R7 that are fixed for a machine. `XLEN`, `NREG`, `ILEN` and `HALT_WORD` are fixed by the
spec; `CYCLEW` and the queue capacities are unbounded (D18, D21), so they are types of State (Nat, List). -/
structure Config where
  codec : Codec
  /-- `MEMLEN`, the number of machine cells -/
  memLen : Nat
  divMode : DivMode
  divZero : DivZeroMode
  shfRight : ShiftFill

/-- What D1 to D3 ask of the maps: injective, with `OPMAP(out) = 15` and `OUTFN(out) = 0` fixed by `0xF000`. -/
structure Codec.Legal (c : Codec) : Prop where
  opMap_injective : Function.Injective c.opMap
  opMap_out : c.opMap .out = 15
  mathFn_injective : Function.Injective c.mathFn
  outFn_injective : Function.Injective c.outFn
  outFn_out : c.outFn .out = 0

/-- A legal choice of parameters; `MEMLEN` is a positive divisor of 65536 (D7). -/
structure Config.Legal (c : Config) : Prop where
  codec_legal : c.codec.Legal
  memLen_divides : c.memLen ∣ 65536

/-- `INIT_MEM`: the data word of every cell before anything has written it, "a parameter, a function from address
to Word; no default" (R7, R40, R292, D17; U12 "any value"). A FREE VALUE: no body. -/
opaque Config.initMem : Nat → Word

/-- FREE VALUE: the quotient of a zero divisor, by dividend, read only under `DivZeroMode.freeResult`. -/
opaque Config.freeQuotient : Word → Word

/-- FREE VALUE: the remainder of a zero divisor, by dividend, read only under `DivZeroMode.freeResult`. -/
opaque Config.freeRemainder : Word → Word

end Sys2Proof
end

