-- ==== Sys2Proof/WellFormed.lean ====
section
/-! DEFINITION. When an instruction's immediate is in the signed range of its field (spec/30_encoding.md R85).
Register operands need no check: every encodable index is a valid register (R21). -/

namespace Sys2Proof

/-- The integer is in the range of a signed field of `n` bits, `-2^(n-1)` to `2^(n-1) - 1` (R85). -/
def fitsSigned (n : Nat) (v : Int) : Bool :=
  decide (-(2 ^ (n - 1) : Int) ≤ v) && decide (v < (2 ^ (n - 1) : Int))

/-- -32 to 31 for a 6-bit immediate, -128 to 127 for an 8-bit one (R85). -/
def Instr.wellFormed : Instr → Bool
  | .add _ _ _ => true
  | .sub _ _ _ => true
  | .and _ _ _ => true
  | .or _ _ _ => true
  | .not _ _ => true
  | .mul _ _ _ => true
  | .div _ _ _ => true
  | .mod _ _ _ => true
  | .jalr _ _ => true
  | .inp _ => true
  | .addi _ _ imm => fitsSigned 6 imm
  | .shf _ _ imm => fitsSigned 6 imm
  | .lw _ _ imm => fitsSigned 6 imm
  | .sw _ _ imm => fitsSigned 6 imm
  | .lli _ imm => fitsSigned 8 imm
  | .lui _ imm => fitsSigned 8 imm
  | .beq _ imm => fitsSigned 8 imm
  | .bne _ imm => fitsSigned 8 imm
  | .bgt _ imm => fitsSigned 8 imm
  | .bge _ imm => fitsSigned 8 imm
  | .blt _ imm => fitsSigned 8 imm
  | .ble _ imm => fitsSigned 8 imm
  | .out _ => true
  | .outs _ => true
  | .outn _ => true
  | .halt => true

end Sys2Proof
end

