-- ==== Sys2Proof/Decode.lean ====
section
/-! DEFINITION. The parameters' values, the instruction codec of spec/30_encoding.md (fields R84, sign extension
R9 and R85, decoder R89, halt sentinel R91, encoder R86, formats and field accessors R88 and R92) and the opcode
table as data. -/

namespace Sys2Proof

/-! ## The values of the parameters (R7) -/

/-- The default `OPMAP` of R95. Only `out` = 15 is the source's; the others are decision D1. -/
def opMapDefault : OpGroup → BitVec 4
  | .math => 0
  | .jalr => 1
  | .inp => 2
  | .addi => 3
  | .shf => 4
  | .lw => 5
  | .sw => 6
  | .lli => 7
  | .lui => 8
  | .beq => 9
  | .bne => 10
  | .bgt => 11
  | .bge => 12
  | .blt => 13
  | .ble => 14
  | .out => 15

/-- The default `MATHFN` of R96 (decision D2). -/
def mathFnDefault : MathOp → BitVec 3
  | .add => 0
  | .sub => 1
  | .and => 2
  | .or => 3
  | .not => 4
  | .mul => 5
  | .div => 6
  | .mod => 7

/-- The default `OUTFN` of R97. Only `out` = 0 is the source's; the others are decision D3. -/
def outFnDefault : OutOp → BitVec 3
  | .out => 0
  | .outs => 1
  | .outn => 2

/-- The machine this model runs: every parameter of R7 at the value the spec takes. -/
def config : Config where
  codec := { opMap := opMapDefault, mathFn := mathFnDefault, outFn := outFnDefault }
  memLen := 65536
  divMode := .truncate
  divZero := .fault
  shfRight := .zeros

/-- `HALT_WORD`, the halt sentinel, fixed by the source (R7, R91). -/
def haltWord : Word := 0xF000

/-! ## Fields (R84) and sign extension (R9) -/

def fieldOpcode (w : Word) : BitVec 4 := w.extractLsb' 12 4
def fieldRd (w : Word) : BitVec 3 := w.extractLsb' 9 3
def fieldRs1 (w : Word) : BitVec 3 := w.extractLsb' 6 3
def fieldRs2 (w : Word) : BitVec 3 := w.extractLsb' 3 3
def fieldSubfunc (w : Word) : BitVec 3 := w.extractLsb' 0 3
def fieldImm6 (w : Word) : BitVec 6 := w.extractLsb' 0 6
def fieldImm8 (w : Word) : BitVec 8 := w.extractLsb' 0 8

/-- `sext_N(f)`: `f` if `f < 2^(N-1)`, else `f - 2^N` (R9). -/
def sext {n : Nat} (f : BitVec n) : Int :=
  if f.toNat < 2 ^ (n - 1) then (f.toNat : Int) else (f.toNat : Int) - 2 ^ n

/-- The register a 3-bit field names (R21, R85). -/
def Reg.ofField (f : BitVec 3) : Reg :=
  match f.toNat with
  | 0 => .r0
  | 1 => .r1
  | 2 => .r2
  | 3 => .r3
  | 4 => .r4
  | 5 => .r5
  | 6 => .r6
  | _ => .r7

/-- The 3-bit field value of a register. -/
def Reg.toField : Reg → BitVec 3
  | .r0 => 0
  | .r1 => 1
  | .r2 => 2
  | .r3 => 3
  | .r4 => 4
  | .r5 => 5
  | .r6 => 6
  | .r7 => 7

/-! ## Decoding (R89) -/

/-- Why a word decodes to nothing: "decode of a bit pattern with no matching definition" (R252). -/
inductive DecodeError where
  | invalidOpcode
  deriving DecidableEq, Repr

def OpGroup.all : List OpGroup :=
  [.math, .jalr, .inp, .addi, .shf, .lw, .sw, .lli, .lui, .beq, .bne, .bgt, .bge, .blt, .ble, .out]

def MathOp.all : List MathOp := [.add, .sub, .and, .or, .not, .mul, .div, .mod]

def OutOp.all : List OutOp := [.out, .outs, .outn]

/-- The opcode group `g` with `OPMAP(g) = op`, if any (R89). -/
def Codec.groupOf (c : Codec) (op : BitVec 4) : Option OpGroup :=
  OpGroup.all.find? (fun g => decide (c.opMap g = op))

/-- The math mnemonic with `MATHFN(m) = f`, if any (R89). -/
def Codec.mathOf (c : Codec) (f : BitVec 3) : Option MathOp :=
  MathOp.all.find? (fun m => decide (c.mathFn m = f))

/-- The out-family mnemonic with `OUTFN(m) = f`, if any (R89, R97). -/
def Codec.outOf (c : Codec) (f : BitVec 3) : Option OutOp :=
  OutOp.all.find? (fun m => decide (c.outFn m = f))

/-- A math instruction from its mnemonic and register fields; `not` has no rs2 (R88). -/
def mathInstr (rd rs1 rs2 : Reg) : MathOp → Instr
  | .add => .add rd rs1 rs2
  | .sub => .sub rd rs1 rs2
  | .and => .and rd rs1 rs2
  | .or => .or rd rs1 rs2
  | .not => .not rd rs1
  | .mul => .mul rd rs1 rs2
  | .div => .div rd rs1 rs2
  | .mod => .mod rd rs1 rs2

/-- An out-family instruction from its mnemonic and register field (R88). -/
def outInstr (rd : Reg) : OutOp → Instr
  | .out => .out rd
  | .outs => .outs rd
  | .outn => .outn rd

/-- `decode(w)` of R89 under the maps `c`: total, an instruction or `InvalidOpcodeError`. It looks at no field
R88 lists as ignored (R90), and knows nothing of the halt sentinel (R91). -/
def decodeWith (c : Codec) (w : Word) : Except DecodeError Instr :=
  let rd := Reg.ofField (fieldRd w)
  let rs1 := Reg.ofField (fieldRs1 w)
  let rs2 := Reg.ofField (fieldRs2 w)
  let imm6 := sext (fieldImm6 w)
  let imm8 := sext (fieldImm8 w)
  match c.groupOf (fieldOpcode w) with
  | none => .error .invalidOpcode
  | some .math =>
    match c.mathOf (fieldSubfunc w) with
    | none => .error .invalidOpcode
    | some m => .ok (mathInstr rd rs1 rs2 m)
  | some .out =>
    match c.outOf (fieldSubfunc w) with
    | none => .error .invalidOpcode
    | some m => .ok (outInstr rd m)
  | some .jalr => .ok (.jalr rd rs1)
  | some .inp => .ok (.inp rd)
  | some .addi => .ok (.addi rd rs1 imm6)
  | some .shf => .ok (.shf rd rs1 imm6)
  | some .lw => .ok (.lw rd rs1 imm6)
  | some .sw => .ok (.sw rd rs1 imm6)
  | some .lli => .ok (.lli rd imm8)
  | some .lui => .ok (.lui rd imm8)
  | some .beq => .ok (.beq rd imm8)
  | some .bne => .ok (.bne rd imm8)
  | some .bgt => .ok (.bgt rd imm8)
  | some .bge => .ok (.bge rd imm8)
  | some .blt => .ok (.blt rd imm8)
  | some .ble => .ok (.ble rd imm8)

/-- The decoder of this machine (R89 with the default maps). -/
def decode (w : Word) : Except DecodeError Instr := decodeWith config.codec w

/-- What the loop makes of a fetched word: it decodes, then compares all 16 bits with the halt sentinel
(R91, R134, R135; the order of R132). -/
def recognise (w : Word) : Except DecodeError Instr :=
  match decode w with
  | .error e => .error e
  | .ok i => .ok (if w = haltWord then .halt else i)

/-! ## Encoding (R86) -/

/-- Format R: opcode, rd, rs1, rs2, subfunc at bits 15:12, 11:9, 8:6, 5:3, 2:0 (R81, R86). -/
def encodeR (op : BitVec 4) (rd rs1 rs2 : Reg) (subfunc : BitVec 3) : Word :=
  (op.zeroExtend 16 <<< 12) ||| (rd.toField.zeroExtend 16 <<< 9) ||| (rs1.toField.zeroExtend 16 <<< 6)
    ||| (rs2.toField.zeroExtend 16 <<< 3) ||| subfunc.zeroExtend 16

/-- Format Imm6: opcode, rd, rs1, and the immediate's two's-complement form masked to 6 bits (R82, R86). -/
def encodeImm6 (op : BitVec 4) (rd rs1 : Reg) (imm : Int) : Word :=
  (op.zeroExtend 16 <<< 12) ||| (rd.toField.zeroExtend 16 <<< 9) ||| (rs1.toField.zeroExtend 16 <<< 6)
    ||| (BitVec.ofInt 6 imm).zeroExtend 16

/-- Format Imm8: opcode, rd, bit 8 written as 0, and the immediate masked to 8 bits (R83, R86). -/
def encodeImm8 (op : BitVec 4) (rd : Reg) (imm : Int) : Word :=
  (op.zeroExtend 16 <<< 12) ||| (rd.toField.zeroExtend 16 <<< 9) ||| (BitVec.ofInt 8 imm).zeroExtend 16

/-- The word of an instruction under the maps `c`; fields it does not use are 0 (R86, R90). -/
def encodeWith (c : Codec) : Instr → Word
  | .add rd rs1 rs2 => encodeR (c.opMap .math) rd rs1 rs2 (c.mathFn .add)
  | .sub rd rs1 rs2 => encodeR (c.opMap .math) rd rs1 rs2 (c.mathFn .sub)
  | .and rd rs1 rs2 => encodeR (c.opMap .math) rd rs1 rs2 (c.mathFn .and)
  | .or rd rs1 rs2 => encodeR (c.opMap .math) rd rs1 rs2 (c.mathFn .or)
  | .not rd rs1 => encodeR (c.opMap .math) rd rs1 .r0 (c.mathFn .not)
  | .mul rd rs1 rs2 => encodeR (c.opMap .math) rd rs1 rs2 (c.mathFn .mul)
  | .div rd rs1 rs2 => encodeR (c.opMap .math) rd rs1 rs2 (c.mathFn .div)
  | .mod rd rs1 rs2 => encodeR (c.opMap .math) rd rs1 rs2 (c.mathFn .mod)
  | .jalr rd rs1 => encodeR (c.opMap .jalr) rd rs1 .r0 0
  | .inp rd => encodeR (c.opMap .inp) rd .r0 .r0 0
  | .addi rd rs1 imm => encodeImm6 (c.opMap .addi) rd rs1 imm
  | .shf rd rs1 imm => encodeImm6 (c.opMap .shf) rd rs1 imm
  | .lw rd rs1 imm => encodeImm6 (c.opMap .lw) rd rs1 imm
  | .sw rd rs1 imm => encodeImm6 (c.opMap .sw) rd rs1 imm
  | .lli rd imm => encodeImm8 (c.opMap .lli) rd imm
  | .lui rd imm => encodeImm8 (c.opMap .lui) rd imm
  | .beq rd imm => encodeImm8 (c.opMap .beq) rd imm
  | .bne rd imm => encodeImm8 (c.opMap .bne) rd imm
  | .bgt rd imm => encodeImm8 (c.opMap .bgt) rd imm
  | .bge rd imm => encodeImm8 (c.opMap .bge) rd imm
  | .blt rd imm => encodeImm8 (c.opMap .blt) rd imm
  | .ble rd imm => encodeImm8 (c.opMap .ble) rd imm
  | .out rd => encodeR (c.opMap .out) rd .r0 .r0 (c.outFn .out)
  | .outs rd => encodeR (c.opMap .out) rd .r0 .r0 (c.outFn .outs)
  | .outn rd => encodeR (c.opMap .out) rd .r0 .r0 (c.outFn .outn)
  | .halt => haltWord

/-- The encoder of this machine (R86 with the default maps). -/
def encode (i : Instr) : Word := encodeWith config.codec i

/-! ## Formats, operand fields and field accessors (R88, R92) -/

/-- The format of each instruction (R88). -/
def Instr.format : Instr → Format
  | .add _ _ _ => .r
  | .sub _ _ _ => .r
  | .and _ _ _ => .r
  | .or _ _ _ => .r
  | .not _ _ => .r
  | .mul _ _ _ => .r
  | .div _ _ _ => .r
  | .mod _ _ _ => .r
  | .jalr _ _ => .r
  | .inp _ => .r
  | .addi _ _ _ => .imm6
  | .shf _ _ _ => .imm6
  | .lw _ _ _ => .imm6
  | .sw _ _ _ => .imm6
  | .lli _ _ => .imm8
  | .lui _ _ => .imm8
  | .beq _ _ => .imm8
  | .bne _ _ => .imm8
  | .bgt _ _ => .imm8
  | .bge _ _ => .imm8
  | .blt _ _ => .imm8
  | .ble _ _ => .imm8
  | .out _ => .r
  | .outs _ => .r
  | .outn _ => .r
  | .halt => .r

/-- Which fields exist in which format (R84). -/
def Format.hasField : Format → Field → Bool
  | _, .opcode => true
  | _, .rd => true
  | .r, .rs1 => true
  | .imm6, .rs1 => true
  | .imm8, .rs1 => false
  | .r, .rs2 => true
  | .imm6, .rs2 => false
  | .imm8, .rs2 => false
  | .r, .subfunc => true
  | .imm6, .subfunc => false
  | .imm8, .subfunc => false
  | .r, .imm6 => false
  | .imm6, .imm6 => true
  | .imm8, .imm6 => false
  | .r, .imm8 => false
  | .imm6, .imm8 => false
  | .imm8, .imm8 => true

/-- The fields each instruction's decoding and execute rule read (the column "operands used" of R88). -/
def Instr.fieldsUsed : Instr → List Field
  | .add _ _ _ => [.rd, .rs1, .rs2, .subfunc]
  | .sub _ _ _ => [.rd, .rs1, .rs2, .subfunc]
  | .and _ _ _ => [.rd, .rs1, .rs2, .subfunc]
  | .or _ _ _ => [.rd, .rs1, .rs2, .subfunc]
  | .not _ _ => [.rd, .rs1, .subfunc]
  | .mul _ _ _ => [.rd, .rs1, .rs2, .subfunc]
  | .div _ _ _ => [.rd, .rs1, .rs2, .subfunc]
  | .mod _ _ _ => [.rd, .rs1, .rs2, .subfunc]
  | .jalr _ _ => [.rd, .rs1]
  | .inp _ => [.rd]
  | .addi _ _ _ => [.rd, .rs1, .imm6]
  | .shf _ _ _ => [.rd, .rs1, .imm6]
  | .lw _ _ _ => [.rd, .rs1, .imm6]
  | .sw _ _ _ => [.rd, .rs1, .imm6]
  | .lli _ _ => [.rd, .imm8]
  | .lui _ _ => [.rd, .imm8]
  | .beq _ _ => [.rd, .imm8]
  | .bne _ _ => [.rd, .imm8]
  | .bgt _ _ => [.rd, .imm8]
  | .bge _ _ => [.rd, .imm8]
  | .blt _ _ => [.rd, .imm8]
  | .ble _ _ => [.rd, .imm8]
  | .out _ => [.rd, .subfunc]
  | .outs _ => [.rd, .subfunc]
  | .outn _ => [.rd, .subfunc]
  | .halt => []

/-- The bits of the word that belong to no field the instruction uses (the column "fields ignored" of R88): rs2 of
`not`; bits 5:0 of `jalr`; bits 8:0 of `in`; bits 8:3 of the out family; bit 8 of format Imm8. -/
def Instr.ignoredBits : Instr → Word
  | .add _ _ _ => 0
  | .sub _ _ _ => 0
  | .and _ _ _ => 0
  | .or _ _ _ => 0
  | .not _ _ => 0x0038
  | .mul _ _ _ => 0
  | .div _ _ _ => 0
  | .mod _ _ _ => 0
  | .jalr _ _ => 0x003F
  | .inp _ => 0x01FF
  | .addi _ _ _ => 0
  | .shf _ _ _ => 0
  | .lw _ _ _ => 0
  | .sw _ _ _ => 0
  | .lli _ _ => 0x0100
  | .lui _ _ => 0x0100
  | .beq _ _ => 0x0100
  | .bne _ _ => 0x0100
  | .bgt _ _ => 0x0100
  | .bge _ _ => 0x0100
  | .blt _ _ => 0x0100
  | .ble _ _ => 0x0100
  | .out _ => 0x01F8
  | .outs _ => 0x01F8
  | .outn _ => 0x01F8
  | .halt => 0

/-- The raw value of a field of a word (R84). -/
def Field.ofWord (w : Word) : Field → Nat
  | .opcode => (fieldOpcode w).toNat
  | .rd => (fieldRd w).toNat
  | .rs1 => (fieldRs1 w).toNat
  | .rs2 => (fieldRs2 w).toNat
  | .subfunc => (fieldSubfunc w).toNat
  | .imm6 => (fieldImm6 w).toNat
  | .imm8 => (fieldImm8 w).toNat

/-- `FieldAccessError` (R92, R254): raised by the codec's typed accessors only, never by an execute rule. -/
inductive FieldAccessError where
  | illegalField (fmt : Format) (f : Field)
  deriving DecidableEq, Repr

/-- The typed field accessor of R92: it validates the format before returning the raw value. -/
def accessField (fmt : Format) (f : Field) (w : Word) : Except FieldAccessError Nat :=
  if fmt.hasField f then .ok (f.ofWord w) else .error (.illegalField fmt f)

/-! ## The opcode table as data (spec/opcode_table.json) -/

/-- The mnemonic of an instruction's row. -/
def Instr.mnemonic : Instr → String
  | .add _ _ _ => "add"
  | .sub _ _ _ => "sub"
  | .and _ _ _ => "and"
  | .or _ _ _ => "or"
  | .not _ _ => "not"
  | .mul _ _ _ => "mul"
  | .div _ _ _ => "div"
  | .mod _ _ _ => "mod"
  | .jalr _ _ => "jalr"
  | .inp _ => "in"
  | .addi _ _ _ => "addi"
  | .shf _ _ _ => "shf"
  | .lw _ _ _ => "lw"
  | .sw _ _ _ => "sw"
  | .lli _ _ => "lli"
  | .lui _ _ => "lui"
  | .beq _ _ => "beq"
  | .bne _ _ => "bne"
  | .bgt _ _ => "bgt"
  | .bge _ _ => "bge"
  | .blt _ _ => "blt"
  | .ble _ _ => "ble"
  | .out _ => "out"
  | .outs _ => "outs"
  | .outn _ => "outn"
  | .halt => "halt"

/-- One row of the opcode table: the words `w` with `w &&& mask = bits`. -/
structure OpcodeRow where
  mnemonic : String
  bits : Word
  mask : Word
  deriving DecidableEq, Repr

/-- The 25 rows of the instructions; the 26th, `halt`, is `haltRow`. -/
def opcodeTable : List OpcodeRow :=
  [ ⟨"add", 0x0000, 0xF007⟩, ⟨"sub", 0x0001, 0xF007⟩, ⟨"and", 0x0002, 0xF007⟩, ⟨"or", 0x0003, 0xF007⟩,
    ⟨"not", 0x0004, 0xF007⟩, ⟨"mul", 0x0005, 0xF007⟩, ⟨"div", 0x0006, 0xF007⟩, ⟨"mod", 0x0007, 0xF007⟩,
    ⟨"jalr", 0x1000, 0xF000⟩, ⟨"in", 0x2000, 0xF000⟩, ⟨"addi", 0x3000, 0xF000⟩, ⟨"shf", 0x4000, 0xF000⟩,
    ⟨"lw", 0x5000, 0xF000⟩, ⟨"sw", 0x6000, 0xF000⟩, ⟨"lli", 0x7000, 0xF000⟩, ⟨"lui", 0x8000, 0xF000⟩,
    ⟨"beq", 0x9000, 0xF000⟩, ⟨"bne", 0xA000, 0xF000⟩, ⟨"bgt", 0xB000, 0xF000⟩, ⟨"bge", 0xC000, 0xF000⟩,
    ⟨"blt", 0xD000, 0xF000⟩, ⟨"ble", 0xE000, 0xF000⟩, ⟨"out", 0xF000, 0xF007⟩, ⟨"outs", 0xF001, 0xF007⟩,
    ⟨"outn", 0xF002, 0xF007⟩ ]

/-- The row of the halt word: it takes priority over the row of `out`. -/
def haltRow : OpcodeRow := ⟨"halt", 0xF000, 0xFFFF⟩

/-! ## The host's question -/

/-- The low `nbits` bits of `w` as the machine's 16-bit word, every bit above them 0. -/
def tableWord (nbits w : Nat) : Word := BitVec.ofNat 16 (w % 2 ^ nbits)

/-- The instruction the loop recognises in the word made of the table's bits, none where it decodes to nothing. -/
def decodeTableWord (nbits w : Nat) : Option Instr :=
  match recognise (tableWord nbits w) with
  | .ok i => some i
  | .error _ => none

end Sys2Proof
end

