-- ==== Sys2Proof/Machine/State.lean ====
section
/-! DEFINITION. The machine's state as plain data (spec/10_state.md R38, with the register snapshot of R37 c), the
reasons a step can stop, and the state right after reset (R40, R290). -/

namespace Sys2Proof.Machine

/-- Registers 1 to 7 (R21, R38). Register 0 is wired to 0 and holds nothing (R22). -/
structure Regs where
  r1 : Word
  r2 : Word
  r3 : Word
  r4 : Word
  r5 : Word
  r6 : Word
  r7 : Word
  deriving DecidableEq, Repr

/-- The data words of the machine cells (R28, R29): one entry (address, word) for each cell written since power-on,
addresses strictly rising and below `MEMLEN`. A cell with no entry holds its power-on word `INIT_MEM(a)` (R40). -/
abbrev Memory := List (Nat × Word)

/-- The addresses whose out-of-band breakpoint bit is set (R28), strictly rising and below `MEMLEN`. -/
abbrev Breakpoints := List Nat

/-- The status tag (R30). -/
inductive Status where
  | halted | running | paused
  deriving DecidableEq, Repr

/-- Which numeric output instruction made an event (R34). -/
inductive NumKind where
  | out | outn
  deriving DecidableEq, Repr

/-- One event of the output stream (R34): `Num(kind, w)` or `Str(ws)`. -/
inductive OutEvent where
  | num (kind : NumKind) (w : Word)
  | str (ws : List Word)
  deriving DecidableEq, Repr

/-- The complete state of the machine (R38), and the register snapshot (R37 c). -/
structure State where
  /-- `x[1]` to `x[7]` (R21) -/
  regs : Regs
  /-- the program counter, an address in 0 to `MEMLEN - 1` (R24) -/
  pc : Nat
  /-- the data words of memory (R28, R29) -/
  mem : Memory
  /-- the breakpoint bits of memory (R28, R37 a) -/
  bps : Breakpoints
  /-- the status tag (R30) -/
  status : Status
  /-- the executed-cycle counter (R32) -/
  cycles : Nat
  /-- the input queue, head first (R33) -/
  inQ : List Word
  /-- the output stream, oldest event first (R34) -/
  out : List OutEvent
  /-- the register file as it was before the current instruction (R37 c, R146); no rule reads it -/
  snapshot : Regs
  deriving DecidableEq, Repr

/-- The execution errors `Run` can return (R250, D27). Each is precise: the failing instruction has no effect
(R256). `FieldAccessError` is no outcome of a run (R254). -/
inductive ExecError where
  /-- raised by `in` on an empty input queue (R251) -/
  | inputExhausted
  /-- raised at decode, of a word with no matching definition (R252) -/
  | invalidOpcode
  /-- raised by `div` and `mod` on a zero divisor (R253) -/
  | divideByZero
  deriving DecidableEq, Repr

/-- Why a step stops the machine. -/
inductive Fault where
  /-- A fatal execution error: raised by `in`, `div`, `mod` and by decoding, as the spec says (R250 to R253). SAFE:
  the spec's own outcome; what the host finds afterwards is `runCall`'s result (R141). -/
  | error (e : ExecError)
  /-- `outs` when no cell of memory is zero: "the instruction never completes" (R188, D11, U9), a stuck state.
  Raised by `outs` alone. SAFE: the spec gives no next state. -/
  | outsHang
  deriving DecidableEq, Repr

/-- Why an instruction has no meaning here. -/
inductive Refusal where
  /-- An instruction the model has not reached; raised by `exec`'s arms only, by none of them now. SAFE. -/
  | notModelled (mnemonic : String)
  deriving DecidableEq, Repr

/-- Seven zero registers. -/
def Regs.zero : Regs := { r1 := 0, r2 := 0, r3 := 0, r4 := 0, r5 := 0, r6 := 0, r7 := 0 }

/-- The machine right after `Reset([])` of a machine just powered on (R40, R290, R292): registers, pc and cycles
zero, status Halted, queues empty, no cell written, no breakpoint bit set. The snapshot's zeros are a
DESIGN CHOICE (notes/assumptions/3.md), the empty input list another (notes/assumptions/4.md). -/
def State.reset : State where
  regs := Regs.zero
  pc := 0
  mem := []
  bps := []
  status := .halted
  cycles := 0
  inQ := []
  out := []
  snapshot := Regs.zero

end Sys2Proof.Machine
end

