-- ==== Sys2Proof/Machine/Ops.lean ====
section
/-! DEFINITION. The named operations over registers, the program counter, memory, breakpoint bits, queues, status
and counter (spec/00_scope.md R10, spec/20_memory.md), and raising an error, which is all the machine has of taking
an exception (spec/60_exceptions.md R256, R260: no entry, no vector, no return). -/

namespace Sys2Proof.Machine

/-- What an instruction's meaning answers. -/
abbrev Result := Host.Outcome State Fault Refusal

/-- `A(n) = n mod MEMLEN`, non-negative, for any integer n (R8, R51). -/
def addrOf (n : Int) : Nat := (n % (config.memLen : Int)).toNat

/-! ## Registers (R21 to R23) -/

/-- The register file's content at a register; register 0 reads 0 (R22). -/
def Regs.get (g : Regs) : Reg → Word
  | .r0 => 0
  | .r1 => g.r1
  | .r2 => g.r2
  | .r3 => g.r3
  | .r4 => g.r4
  | .r5 => g.r5
  | .r6 => g.r6
  | .r7 => g.r7

/-- The register file with one register replaced; a write to register 0 is discarded (R22). -/
def Regs.set (g : Regs) (r : Reg) (v : Word) : Regs :=
  match r with
  | .r0 => g
  | .r1 => { g with r1 := v }
  | .r2 => { g with r2 := v }
  | .r3 => { g with r3 := v }
  | .r4 => { g with r4 := v }
  | .r5 => { g with r5 := v }
  | .r6 => { g with r6 := v }
  | .r7 => { g with r7 := v }

/-- `x[r]` (R10). -/
def State.reg (s : State) (r : Reg) : Word := s.regs.get r

/-- `x[r] <- v` (R10). -/
def State.setReg (s : State) (r : Reg) (v : Word) : State := { s with regs := s.regs.set r v }

/-! ## Program counter (R24 to R26) -/

/-- `pcnext = A(pc + 1)` (R10). -/
def State.pcNext (s : State) : Nat := addrOf ((s.pc : Int) + 1)

/-- `pc <- A(n)` (R10, R26). -/
def State.goto (s : State) (n : Int) : State := { s with pc := addrOf n }

/-- `pc <- pcnext` (R25). -/
def State.advance (s : State) : State := { s with pc := s.pcNext }

/-! ## Memory (R50 to R54) -/

/-- The word written to a cell since power-on, if any. -/
def Memory.written (m : Memory) (a : Nat) : Option Word :=
  match m with
  | [] => none
  | (b, v) :: rest => if b = a then some v else Memory.written rest a

/-- Replace or add the entry of one cell, keeping the addresses rising. -/
def Memory.store (m : Memory) (a : Nat) (v : Word) : Memory :=
  match m with
  | [] => [(a, v)]
  | (b, w) :: rest =>
    if a < b then (a, v) :: (b, w) :: rest
    else if a = b then (a, v) :: rest
    else (b, w) :: Memory.store rest a v

/-- What a cell no write has reached reads as: `INIT_MEM(a)`, a free value (R40, U12). -/
def unwrittenCell (a : Nat) : Word := Config.initMem a

/-- The canonical form: addresses strictly rising, all below `MEMLEN`. -/
abbrev Memory.wf (m : Memory) : Prop :=
  (m.map Prod.fst).Pairwise (· < ·) ∧ ∀ c ∈ m, c.1 < config.memLen

/-- `MemRead(a, 1)` (R52). -/
def State.memRead (s : State) (a : Int) : Word :=
  (Memory.written s.mem (addrOf a)).getD (unwrittenCell (addrOf a))

/-- `MemWrite(a, 1, v)` (R53). -/
def State.memWrite (s : State) (a : Int) (v : Word) : State :=
  { s with mem := Memory.store s.mem (addrOf a) v }

/-! ## Breakpoint bits (R28, R147) -/

/-- Add an address to a rising list of addresses. -/
def Breakpoints.insert (l : Breakpoints) (a : Nat) : Breakpoints :=
  match l with
  | [] => [a]
  | b :: rest => if a < b then a :: b :: rest else if a = b then b :: rest else b :: Breakpoints.insert rest a

/-- Take an address out of a list of addresses. -/
def Breakpoints.remove (l : Breakpoints) (a : Nat) : Breakpoints := l.filter (fun b => decide (b ≠ a))

/-- The canonical form: addresses strictly rising, all below `MEMLEN`. -/
abbrev Breakpoints.wf (l : Breakpoints) : Prop := l.Pairwise (· < ·) ∧ ∀ a ∈ l, a < config.memLen

/-- `mem[A(a)].bp` (R28). -/
def State.bpAt (s : State) (a : Int) : Bool := decide (addrOf a ∈ s.bps)

/-- `mem[A(a)].bp <- true` (R147). -/
def State.setBp (s : State) (a : Int) : State := { s with bps := Breakpoints.insert s.bps (addrOf a) }

/-- `mem[A(a)].bp <- false` (R147). -/
def State.clearBp (s : State) (a : Int) : State := { s with bps := Breakpoints.remove s.bps (addrOf a) }

/-! ## Queues, status, counter, snapshot -/

/-- `InQ` without its head (R33). -/
def State.popInput (s : State) : State := { s with inQ := s.inQ.tail }

/-- `Out <- Out ++ [e]` (R34). -/
def State.emit (s : State) (e : OutEvent) : State := { s with out := s.out ++ [e] }

/-- `status <- st` (R30). -/
def State.setStatus (s : State) (st : Status) : State := { s with status := st }

/-- `cycles <- cycles + 1` (R32, R136). -/
def State.countCycle (s : State) : State := { s with cycles := s.cycles + 1 }

/-- The register snapshot of step 2 (R134, R146). -/
def State.takeSnapshot (s : State) : State := { s with snapshot := s.regs }

/-! ## The null-terminated string of `outs` (R188) -/

/-- The words from cell `a` on before the first zero cell, looking at no more than `fuel` cells; the address wraps. -/
def State.scanString (s : State) : Nat → Nat → Option (List Word)
  | 0, _ => none
  | fuel + 1, a =>
    if s.memRead a = 0 then some []
    else (State.scanString s fuel (addrOf ((a : Int) + 1))).map (s.memRead a :: ·)

/-- The string that starts at `A(a)`. After `MEMLEN` cells the read is back where it began, so `none` says that no
cell of memory is zero and the read never ends (R188, D11). -/
def State.readString (s : State) (a : Int) : Option (List Word) := s.scanString config.memLen (addrOf a)

/-! ## Ways an instruction ends -/

/-- `raise E`: the instruction ends with the fatal error and no other effect (R10, R256). This is the machine's whole
exception entry: nothing is saved, no mode changes, pc is not redirected (R260). -/
def raise (e : ExecError) : Result := .fault (.error e)

/-- The common end of a register-writing instruction: `x[rd] <- v`, then `pc <- pcnext` (R25). -/
def writeBack (s : State) (rd : Reg) (v : Word) : Result := .next ((s.setReg rd v).advance)

/-- The common end of an output instruction: one event, then `pc <- pcnext` (R186). -/
def emitAndAdvance (s : State) (e : OutEvent) : Result := .next ((s.emit e).advance)

/-- `status <- Halted`, pc unchanged (R135, R186). -/
def haltHere (s : State) : Result := .next (s.setStatus .halted)

end Sys2Proof.Machine
end

