-- ==== Sys2Proof/Machine/Flags.lean ====
section
/-! DEFINITION. The machine has no flags (spec/10_state.md R27). What stands in their place are the six conditions
of the branches, each a test of a register's signed value against zero (spec/47_branch.md R230 to R236). -/

namespace Sys2Proof.Machine

/-- `beq` (R231). -/
def condEq (v : Int) : Bool := decide (v = 0)

/-- `bne` (R232). -/
def condNe (v : Int) : Bool := decide (v ≠ 0)

/-- `bgt` (R233). -/
def condGt (v : Int) : Bool := decide (v > 0)

/-- `bge` (R234). -/
def condGe (v : Int) : Bool := decide (v ≥ 0)

/-- `blt` (R235). -/
def condLt (v : Int) : Bool := decide (v < 0)

/-- `ble` (R236). -/
def condLe (v : Int) : Bool := decide (v ≤ 0)

end Sys2Proof.Machine
end

