-- ==== Sys2Proof/Machine/Operands.lean ====
section
/-! DEFINITION. Operand forms: the one addressing mode (spec/45_load_store.md R210), the branch target
(spec/47_branch.md R230), the register jump target and the link (spec/42_jalr.md R180), the immediates of `lli` and
`lui` (spec/46_load_imm.md R220, R221). -/

namespace Sys2Proof.Machine

/-- The effective address before it selects a cell: `u(x[rs1]) + sext_6(imm6)` (R210). -/
def State.effAddr (s : State) (rs1 : Reg) (imm : Int) : Int := uview (s.reg rs1) + imm

/-- The target of a taken branch before it is reduced: `pc + 1 + sext_8(imm8)` (R230). -/
def State.branchTarget (s : State) (imm : Int) : Int := (s.pc : Int) + 1 + imm

/-- The link of `jalr`: `W(pcnext)` (R180). -/
def State.linkValue (s : State) : Word := toWord (s.pcNext : Int)

/-- `lli`: `W(sext_8(imm8))` (R220). -/
def lliValue (imm : Int) : Word := toWord imm

/-- `lui`: bits 15:8 become the immediate, bits 7:0 stay (R221). -/
def luiValue (old : Word) (imm : Int) : Word := (old &&& (0x00FF : Word)) ||| toWord (imm * 256)

end Sys2Proof.Machine
end

