-- ==== Sys2Proof/Machine/Branch.lean ====
section
/-! DEFINITION. Conditional branches (spec/47_branch.md): no delay slot, no link, no register or memory written. -/

namespace Sys2Proof.Machine

/-- Taken: `pc <- A(pc + 1 + sext_8(imm8))`; not taken: `pc <- pcnext` (R230). -/
def branchIf (taken : Bool) (imm : Int) (s : State) : Result :=
  if taken then .next (s.goto (s.branchTarget imm)) else .next s.advance

/-- `beq rd, imm8` (R231). -/
def execBeq (rd : Reg) (imm : Int) (s : State) : Result := branchIf (condEq (sview (s.reg rd))) imm s

/-- `bne rd, imm8` (R232). -/
def execBne (rd : Reg) (imm : Int) (s : State) : Result := branchIf (condNe (sview (s.reg rd))) imm s

/-- `bgt rd, imm8` (R233). -/
def execBgt (rd : Reg) (imm : Int) (s : State) : Result := branchIf (condGt (sview (s.reg rd))) imm s

/-- `bge rd, imm8` (R234). -/
def execBge (rd : Reg) (imm : Int) (s : State) : Result := branchIf (condGe (sview (s.reg rd))) imm s

/-- `blt rd, imm8` (R235). -/
def execBlt (rd : Reg) (imm : Int) (s : State) : Result := branchIf (condLt (sview (s.reg rd))) imm s

/-- `ble rd, imm8` (R236). -/
def execBle (rd : Reg) (imm : Int) (s : State) : Result := branchIf (condLe (sview (s.reg rd))) imm s

end Sys2Proof.Machine
end

