-- ==== Sys2Proof/Machine/Alu.lean ====
section
/-! DEFINITION. The results of the math group and of `shf`: exact integer arithmetic, narrowed to a Word at the end
(spec/41_math.md R160 to R169, spec/44_imm6_arith.md R200, R201). -/

namespace Sys2Proof.Machine

/-- R161. -/
def aluAdd (a b : Word) : Word := toWord (uview a + uview b)

/-- R162: the first minus the second. -/
def aluSub (a b : Word) : Word := toWord (uview a - uview b)

/-- R163. -/
def aluAnd (a b : Word) : Word := a &&& b

/-- R164. -/
def aluOr (a b : Word) : Word := a ||| b

/-- R165. -/
def aluNot (a : Word) : Word := toWord (0xFFFF - uview a)

/-- R166: the low 16 bits of the product. -/
def aluMul (a b : Word) : Word := toWord (sview a * sview b)

/-- The quotient: rounded toward zero under `truncate` (R167, D8), down under `floor`. -/
def quotient (m : DivMode) (a b : Int) : Int :=
  match m with
  | .truncate => a.sign * b.sign * ((a.natAbs / b.natAbs : Nat) : Int)
  | .floor => Int.fdiv a b

/-- The remainder `a - q * b` (R168). -/
def remainder (m : DivMode) (a b : Int) : Int := a - quotient m a b * b

/-- The result of `div`, or the error of a zero divisor (R167). -/
def aluDiv (a b : Word) : Except ExecError Word :=
  if sview b = 0 then
    match config.divZero with
    | .fault => .error .divideByZero
    | .freeResult => .ok (Config.freeQuotient a)
  else .ok (toWord (quotient config.divMode (sview a) (sview b)))

/-- The result of `mod`, or the error of a zero divisor (R168). -/
def aluMod (a b : Word) : Except ExecError Word :=
  if sview b = 0 then
    match config.divZero with
    | .fault => .error .divideByZero
    | .freeResult => .ok (Config.freeRemainder a)
  else .ok (toWord (remainder config.divMode (sview a) (sview b)))

/-- R200. -/
def aluAddi (a : Word) (imm : Int) : Word := toWord (uview a + imm)

/-- R201: left by n when n > 0, else right by -n, by the full count; the fill of the right shift is `SHFRIGHT`
(D10): zeros divide the unsigned view, sign fill divides the signed view, both rounded down. -/
def aluShift (fill : ShiftFill) (a : Word) (n : Int) : Word :=
  if n > 0 then toWord (uview a * 2 ^ n.toNat)
  else
    match fill with
    | .zeros => toWord (uview a / 2 ^ (-n).toNat)
    | .sign => toWord (sview a / 2 ^ (-n).toNat)

/-- The end of `div` and `mod`: raise, or write the result and advance (R167, R168). -/
def writeBackOrRaise (s : State) (rd : Reg) (r : Except ExecError Word) : Result :=
  match r with
  | .ok v => writeBack s rd v
  | .error e => raise e

end Sys2Proof.Machine
end

