-- ==== Sys2Proof/Machine/ImmArith.lean ====
section
/-! DEFINITION. Immediate arithmetic (spec/44_imm6_arith.md). -/

namespace Sys2Proof.Machine

/-- `addi rd, rs1, imm6` (R200). -/
def execAddi (rd rs1 : Reg) (imm : Int) (s : State) : Result := writeBack s rd (aluAddi (s.reg rs1) imm)

/-- `shf rd, rs1, imm6` (R201). -/
def execShf (rd rs1 : Reg) (imm : Int) (s : State) : Result :=
  writeBack s rd (aluShift config.shfRight (s.reg rs1) imm)

end Sys2Proof.Machine
end

