-- ==== Sys2Proof/Machine/Io.lean ====
section
/-! DEFINITION. Input, output and halt (spec/43_io.md, spec/40_fetch_execute_loop.md R135). -/

namespace Sys2Proof.Machine

/-- `in rd` (R185): the head of the queue goes to rd; register 0 discards it, the head is gone all the same. -/
def execIn (rd : Reg) (s : State) : Result :=
  match s.inQ with
  | [] => raise .inputExhausted
  | v :: _ => writeBack s.popInput rd v

/-- `out rd` (R186, R187): the halt convention tests the register's number, not its value. -/
def execOut (rd : Reg) (s : State) : Result :=
  if rd = .r0 then haltHere s else emitAndAdvance s (.num .out (s.reg rd))

/-- `outs rd` (R186, R188). -/
def execOuts (rd : Reg) (s : State) : Result :=
  if rd = .r0 then haltHere s
  else
    match s.readString (uview (s.reg rd)) with
    | some ws => emitAndAdvance s (.str ws)
    | none => .fault .outsHang

/-- `outn rd` (R186, R189). -/
def execOutn (rd : Reg) (s : State) : Result :=
  if rd = .r0 then haltHere s else emitAndAdvance s (.num .outn (s.reg rd))

/-- The halt sentinel (R135): status Halted, pc on the halt word; the loop counts no cycle for it. -/
def execHalt (s : State) : Result := haltHere s

end Sys2Proof.Machine
end

