-- ==== Sys2Proof/Machine/Jump.lean ====
section
/-! DEFINITION. Jump and link (spec/42_jalr.md). -/

namespace Sys2Proof.Machine

/-- `jalr rd, rs1` (R180): the target is read from rd before the link is written to rs1 (D20). -/
def execJalr (rd rs1 : Reg) (s : State) : Result :=
  .next ((s.setReg rs1 s.linkValue).goto (uview (s.reg rd)))

end Sys2Proof.Machine
end

