-- ==== Sys2Proof/Machine/LoadImm.lean ====
section
/-! DEFINITION. Load immediates (spec/46_load_imm.md). -/

namespace Sys2Proof.Machine

/-- `lli rd, imm8` (R220): all 16 bits of rd are written. -/
def execLli (rd : Reg) (imm : Int) (s : State) : Result := writeBack s rd (lliValue imm)

/-- `lui rd, imm8` (R221): the high byte of rd is written, the low byte kept. -/
def execLui (rd : Reg) (imm : Int) (s : State) : Result := writeBack s rd (luiValue (s.reg rd) imm)

end Sys2Proof.Machine
end

