-- ==== Sys2Proof/Machine/LoadStore.lean ====
section
/-! DEFINITION. Loads and stores (spec/45_load_store.md). -/

namespace Sys2Proof.Machine

/-- `lw rd, rs1, imm6` (R211). -/
def execLw (rd rs1 : Reg) (imm : Int) (s : State) : Result := writeBack s rd (s.memRead (s.effAddr rs1 imm))

/-- `sw rd, rs1, imm6` (R212): rd is the source of the data; the cell's breakpoint bit is unchanged. -/
def execSw (rd rs1 : Reg) (imm : Int) (s : State) : Result :=
  .next ((s.memWrite (s.effAddr rs1 imm) (s.reg rd)).advance)

end Sys2Proof.Machine
end

