-- ==== Sys2Proof/Machine/Math.lean ====
section
/-! DEFINITION. The math group (spec/41_math.md): `rd ← f(rs1, rs2)`; both operands are read before the result is
written, register 0 discards the result, no flag, no memory (R160). -/

namespace Sys2Proof.Machine

/-- `add rd, rs1, rs2` (R161). -/
def execAdd (rd rs1 rs2 : Reg) (s : State) : Result := writeBack s rd (aluAdd (s.reg rs1) (s.reg rs2))

/-- `sub rd, rs1, rs2` (R162). -/
def execSub (rd rs1 rs2 : Reg) (s : State) : Result := writeBack s rd (aluSub (s.reg rs1) (s.reg rs2))

/-- `and rd, rs1, rs2` (R163). -/
def execAnd (rd rs1 rs2 : Reg) (s : State) : Result := writeBack s rd (aluAnd (s.reg rs1) (s.reg rs2))

/-- `or rd, rs1, rs2` (R164). -/
def execOr (rd rs1 rs2 : Reg) (s : State) : Result := writeBack s rd (aluOr (s.reg rs1) (s.reg rs2))

/-- `not rd, rs1` (R165). -/
def execNot (rd rs1 : Reg) (s : State) : Result := writeBack s rd (aluNot (s.reg rs1))

/-- `mul rd, rs1, rs2` (R166). -/
def execMul (rd rs1 rs2 : Reg) (s : State) : Result := writeBack s rd (aluMul (s.reg rs1) (s.reg rs2))

/-- `div rd, rs1, rs2` (R167). -/
def execDiv (rd rs1 rs2 : Reg) (s : State) : Result := writeBackOrRaise s rd (aluDiv (s.reg rs1) (s.reg rs2))

/-- `mod rd, rs1, rs2` (R168). -/
def execMod (rd rs1 rs2 : Reg) (s : State) : Result := writeBackOrRaise s rd (aluMod (s.reg rs1) (s.reg rs2))

end Sys2Proof.Machine
end

