-- ==== Sys2Proof/Machine/Dispatch.lean ====
section
/-! DEFINITION. Dispatch to the execute behaviour of each instruction (spec/40_fetch_execute_loop.md R149), and of
the halt sentinel (R135). -/

namespace Sys2Proof.Machine

def exec (i : Instr) (s : State) : Host.Outcome State Fault Refusal :=
  match i with
  | .add rd rs1 rs2 => Sys2Proof.Machine.execAdd rd rs1 rs2 s
  | .sub rd rs1 rs2 => Sys2Proof.Machine.execSub rd rs1 rs2 s
  | .and rd rs1 rs2 => Sys2Proof.Machine.execAnd rd rs1 rs2 s
  | .or rd rs1 rs2 => Sys2Proof.Machine.execOr rd rs1 rs2 s
  | .not rd rs1 => Sys2Proof.Machine.execNot rd rs1 s
  | .mul rd rs1 rs2 => Sys2Proof.Machine.execMul rd rs1 rs2 s
  | .div rd rs1 rs2 => Sys2Proof.Machine.execDiv rd rs1 rs2 s
  | .mod rd rs1 rs2 => Sys2Proof.Machine.execMod rd rs1 rs2 s
  | .jalr rd rs1 => Sys2Proof.Machine.execJalr rd rs1 s
  | .inp rd => Sys2Proof.Machine.execIn rd s
  | .addi rd rs1 imm => Sys2Proof.Machine.execAddi rd rs1 imm s
  | .shf rd rs1 imm => Sys2Proof.Machine.execShf rd rs1 imm s
  | .lw rd rs1 imm => Sys2Proof.Machine.execLw rd rs1 imm s
  | .sw rd rs1 imm => Sys2Proof.Machine.execSw rd rs1 imm s
  | .lli rd imm => Sys2Proof.Machine.execLli rd imm s
  | .lui rd imm => Sys2Proof.Machine.execLui rd imm s
  | .beq rd imm => Sys2Proof.Machine.execBeq rd imm s
  | .bne rd imm => Sys2Proof.Machine.execBne rd imm s
  | .bgt rd imm => Sys2Proof.Machine.execBgt rd imm s
  | .bge rd imm => Sys2Proof.Machine.execBge rd imm s
  | .blt rd imm => Sys2Proof.Machine.execBlt rd imm s
  | .ble rd imm => Sys2Proof.Machine.execBle rd imm s
  | .out rd => Sys2Proof.Machine.execOut rd s
  | .outs rd => Sys2Proof.Machine.execOuts rd s
  | .outn rd => Sys2Proof.Machine.execOutn rd s
  | .halt => Sys2Proof.Machine.execHalt s

end Sys2Proof.Machine
end

