-- ==== Sys2Proof/Machine/Loop.lean ====
section
/-! DEFINITION. One iteration of the fetch-decode-execute loop: steps 1 to 5 of spec/40_fetch_execute_loop.md R132,
in the order R259 states. `Machine/HostCalls.lean` repeats it under a budget. -/

namespace Sys2Proof.Machine

/-- How one iteration of the loop ends. -/
inductive Iteration where
  /-- an instruction was dispatched and the call goes on (R136) -/
  | continues (s : State)
  /-- stop reason Halted, by the sentinel (R135) or by execution (R137) -/
  | halted (s : State)
  /-- stop reason Breakpoint (R133) -/
  | breakpoint (s : State)
  /-- stop reason `Fault(e)`, with the state the host finds (R141) -/
  | faulted (e : ExecError) (s : State)
  /-- the instruction never completes (R188) -/
  | hangs
  /-- the instruction has no meaning in the model -/
  | refused (r : Refusal)
  deriving Repr

/-- The instruction fetch reads the cell's data at pc (R54 a, R69, R133). -/
def State.fetchWord (s : State) : Word := s.memRead s.pc

/-- Step 1's test: the cell at pc has its breakpoint bit set and the status is not Paused (R133). -/
def State.atBreakpoint (s : State) : Bool := s.bpAt s.pc && decide (s.status ≠ .paused)

/-- Step 4 after the execute rule, and step 5: one cycle, then Halted if the instruction set it (R136, R137). -/
def afterExecute (t : State) : Iteration :=
  if t.status = .halted then .halted t.countCycle else .continues t.countCycle

/-- Steps 3 to 5 for a recognised instruction; `s` has status Running and its snapshot taken. The sentinel stops the
loop without a cycle (R135); a raised error leaves `s` as it is (R141). -/
def dispatch (i : Instr) (s : State) : Iteration :=
  match exec i s with
  | .next t => if i = .halt then .halted t else afterExecute t
  | .fault (.error e) => .faulted e s
  | .fault .outsHang => .hangs
  | .refused r => .refused r

/-- One iteration of the loop of R132. -/
def iterate (s : State) : Iteration :=
  if s.atBreakpoint then .breakpoint (s.setStatus .paused)
  else
    match recognise s.fetchWord with
    | .error _ => .faulted .invalidOpcode (s.setStatus .running)
    | .ok i => dispatch i (s.setStatus .running).takeSnapshot

end Sys2Proof.Machine
end

