-- ==== Sys2Proof/Machine/Step.lean ====
section
/-! DEFINITION. The machine's step: one iteration of the loop of spec/40_fetch_execute_loop.md R132, as a call with
budget to spare would make it, and the placing of an instruction where the next step fetches. -/

namespace Sys2Proof.Machine

/-- One step. Where the loop would return Halted or Breakpoint to the host, the step still answers the state it
leaves (the status tag tells), and the next step is the first iteration of the host's next `Run` (R142, R144, R145).
A fatal error or an `outs` that never ends is a fault (notes/assumptions/5.md). -/
def step (s : State) : Host.Outcome State Fault Refusal :=
  match iterate s with
  | .continues t => .next t
  | .halted t => .next t
  | .breakpoint t => .next t
  | .faulted e _ => .fault (.error e)
  | .hangs => .fault .outsHang
  | .refused r => .refused r

/-- The host's image load of one cell, at pc (R64), with the cell's breakpoint bit cleared so that the very next step
runs the word (notes/assumptions/6.md). -/
def State.withFetchWord (s : State) (nbits w : Nat) : State :=
  (s.memWrite s.pc (tableWord nbits w)).clearBp s.pc

end Sys2Proof.Machine
end

