-- ==== Sys2Proof/Machine/HostCalls.lean ====
section
/-! DEFINITION. The host transactions of spec/40_fetch_execute_loop.md R130, as functions of the state: `Reset`,
`Run`, `Step`, `SetBreakpoint`, `ClearBreakpoint`, `WriteCell`, `ReadCell`. The host acts between calls only
(R66, R298). -/

namespace Sys2Proof.Machine

/-- Why a call of `Run` or `Step` returned (R131). -/
inductive StopReason where
  | halted | breakpoint | cyclesExceeded
  | fault (e : ExecError)
  deriving DecidableEq, Repr

/-- What becomes of a call of `Run` or `Step`. -/
inductive CallResult where
  /-- the call returns a stop reason and leaves a state (R131) -/
  | returned (r : StopReason) (s : State)
  /-- the call does not return: an `outs` found no zero cell (R188, D11) -/
  | hangs
  /-- the model refused an instruction -/
  | refused (r : Refusal)
  deriving DecidableEq, Repr

/-- The loop of R132 with `budget` units left. Every iteration that goes on has charged exactly one (R136). -/
def runLoop : Nat → State → CallResult
  | 0, s => .returned .cyclesExceeded (s.setStatus .paused)
  | budget + 1, s =>
    match iterate s with
    | .continues t => runLoop budget t
    | .halted t => .returned .halted t
    | .breakpoint t => .returned .breakpoint t
    | .faulted e t => .returned (.fault e) t
    | .hangs => .hangs
    | .refused r => .refused r

/-- `Run(maxCycles)` (R132); a budget of zero or less executes nothing (R140). -/
def runCall (maxCycles : Int) (s : State) : CallResult := runLoop maxCycles.toNat s

/-- `Step() = Run(1)` (R139). -/
def stepCall (s : State) : CallResult := runCall 1 s

/-- `Reset(inputs)` (R290): memory data and breakpoint bits stay. The snapshot's zeros are a DESIGN CHOICE
(notes/assumptions/3.md). -/
def resetCall (inputs : List Word) (s : State) : State :=
  { s with
    regs := Regs.zero
    pc := 0
    cycles := 0
    status := .halted
    inQ := inputs
    out := []
    snapshot := Regs.zero }

/-- The machine just powered on (R40, R292): no cell written, no breakpoint bit set, all else unspecified. -/
def State.poweredOn (s : State) : Prop := s.mem = [] ∧ s.bps = []

/-- The transactions of R130 that change the state or run the machine. -/
inductive HostCall where
  | reset (inputs : List Word)
  | run (maxCycles : Int)
  | step
  | setBreakpoint (a : Int)
  | clearBreakpoint (a : Int)
  | writeCell (a : Int) (v : Word)
  deriving DecidableEq, Repr

/-- What one transaction does: the state it leaves and, for `Run` and `Step`, the stop reason. -/
inductive Answer where
  | done (s : State)
  | stopped (r : StopReason) (s : State)
  | hangs
  | refused (r : Refusal)
  deriving DecidableEq, Repr

/-- The answer of a call of `Run` or `Step`. -/
def CallResult.answer : CallResult → Answer
  | .returned r s => .stopped r s
  | .hangs => .hangs
  | .refused r => .refused r

/-- `ReadCell(a)` (R64, R130). -/
def readCell (a : Int) (s : State) : Word := s.memRead a

/-- One host transaction (R130). -/
def perform (c : HostCall) (s : State) : Answer :=
  match c with
  | .reset inputs => .done (resetCall inputs s)
  | .run n => (runCall n s).answer
  | .step => (stepCall s).answer
  | .setBreakpoint a => .done (s.setBp a)
  | .clearBreakpoint a => .done (s.clearBp a)
  | .writeCell a v => .done (s.memWrite a v)

/-- The transactions of a host one after the other (R298); a call that does not return ends the session. -/
def session : List HostCall → State → Answer
  | [], s => .done s
  | c :: rest, s =>
    match perform c s with
    | .done t => session rest t
    | .stopped r t => if rest = [] then .stopped r t else session rest t
    | .hangs => .hangs
    | .refused r => .refused r

end Sys2Proof.Machine
end

