-- ==== Sys2Proof/Machine/Assembler.lean ====
section
/-! DEFINITION. The toolchain's notation (spec/30_encoding.md R112 to R121), over statements already parsed: the
pseudo-ops, the directives, the two passes with their relocations, and the loading of an image (R64, R293). It is no
part of the hardware and no rule of the hardware depends on it (R5). Statements from text: Machine/AsmText.lean. -/

namespace Sys2Proof.Machine

/-- The pseudo-ops of R114 with literal operands. -/
inductive PseudoOp where
  | mov (rd rs : Reg)
  | halt
  | jmp (rs : Reg)
  | br (offset : Int)
  | push (sp rv : Reg)
  | pop (sp rv : Reg)
  | lwi (rd : Reg) (c : Int)
  deriving DecidableEq, Repr

/-- The byte `(c >> k) & 0xFF` as the signed immediate it encodes to (R85, R86). -/
def immByte (c : Int) (k : Nat) : Int := sext (BitVec.ofInt 8 (c / 2 ^ k))

/-- The table of R114, row for row; `pop` is the document's expansion, which loads nothing (R115). -/
def PseudoOp.expand : PseudoOp → List Instr
  | .mov rd rs => [.add rd rs .r0]
  | .halt => [.out .r0]
  | .jmp rs => [.jalr rs .r0]
  | .br offset => [.beq .r0 offset]
  | .push sp rv => [.sw rv sp 0, .addi sp sp (-1)]
  | .pop sp rv => [.addi sp sp 1, .sw rv sp 0]
  | .lwi rd c => [.lli rd (immByte c 0), .lui rd (immByte c 8)]

/-- One parsed statement without its labels. -/
inductive Line where
  /-- a real instruction with literal operands -/
  | real (i : Instr)
  /-- a real instruction whose immediate operand is a label; its own immediate is the placeholder 0 (R113) -/
  | labelled (i : Instr) (name : String)
  | pseudo (p : PseudoOp)
  /-- `br &name` -/
  | brLabel (name : String)
  /-- `lwi rd, &name` -/
  | lwiLabel (rd : Reg) (name : String)
  | org (n : Nat)
  | define (value : Int)
  | fill (values : List Int)
  | cstr (text : String)
  /-- `.halt` (D24) -/
  | haltDirective
  deriving DecidableEq, Repr

/-- A statement: the labels attached to it, and its line. -/
structure Statement where
  labels : List String
  line : Line
  deriving DecidableEq, Repr

/-- The assembler's errors (R116, R119 to R121); all are fatal to the assembly. R121 names four kinds; that the fatal
cases of R116 and R120 have which kind is a DESIGN CHOICE (notes/assumptions/34.md). -/
inductive AsmError where
  /-- ParseError, naming the token (R111); also an unknown mnemonic, and a `.ralias` of no standard register -/
  | parseError (token : String)
  /-- OperandArityError (R112) -/
  | operandArity (mnemonic : String)
  | unresolvedLabel (name : String)
  | relocationRange
  | labelNotMeaningful
  | orgWithLabel
  | defWithoutLabel
  deriving DecidableEq, Repr

/-- The words of a line, each with the label that patches it, if any (R113, R114, R116). A character of `.cstr` whose
code point is above 0xFFFF leaves its low 16 bits (DESIGN CHOICE, notes/assumptions/28.md). -/
def Line.emit : Line → List (Word × Option String)
  | .real i => [(encode i, none)]
  | .labelled i name => [(encode i, some name)]
  | .pseudo p => p.expand.map (fun i => (encode i, none))
  | .brLabel name => [(encode (.beq .r0 0), some name)]
  | .lwiLabel rd name => [(encode (.lli rd 0), some name), (encode (.lui rd 0), some name)]
  | .org _ => []
  | .define _ => []
  | .fill values => values.map (fun v => (toWord v, none))
  | .cstr text => text.toList.map (fun ch => (toWord (ch.toNat : Int), none)) ++ [(0, none)]
  | .haltDirective => [(haltWord, none)]

/-- What pass 1 has gathered: the cursor, the label table, and the words placed, with their pending labels. -/
structure Pass1 where
  cursor : Nat
  labels : List (String × Int)
  placed : List (Nat × Word × Option String)
  deriving DecidableEq, Repr

/-- The words of a line at consecutive addresses. -/
def placeAt : Nat → List (Word × Option String) → List (Nat × Word × Option String)
  | _, [] => []
  | a, (w, l) :: rest => (a, w, l) :: placeAt (a + 1) rest

/-- Pass 1 over one statement (R116, R117). Words placed at an address that has one stay beside it, each with its own
label (DESIGN CHOICE, notes/assumptions/33.md); the error kinds are the model's (notes/assumptions/34.md). The value of
`.def` is not reduced (DESIGN CHOICE, notes/assumptions/39.md). -/
def passOne (p : Pass1) (st : Statement) : Except AsmError Pass1 :=
  match st.line with
  | .org n => if st.labels = [] then .ok { p with cursor := n } else .error .orgWithLabel
  | .define v =>
    if st.labels = [] then .error .defWithoutLabel
    else .ok { p with labels := p.labels ++ st.labels.map (fun l => (l, v)) }
  | line =>
    .ok { cursor := p.cursor + line.emit.length
          labels := p.labels ++ st.labels.map (fun l => (l, (p.cursor : Int)))
          placed := p.placed ++ placeAt p.cursor line.emit }

/-- `target - (address + 1)`, less the memory length where it is half of it or more: the correction as the spec reads
it (R119). -/
def wrappedOffset (address target : Int) : Int :=
  if target - (address + 1) ≥ (config.memLen : Int) / 2 then target - (address + 1) - config.memLen
  else target - (address + 1)

/-- The offset of a branch at `address` to `target`, if it fits 8 signed bits (R119). -/
def branchOffset (address target : Int) : Option Int :=
  if fitsSigned 8 (wrappedOffset address target) then some (wrappedOffset address target) else none

/-- The word with its low 8 bits replaced. -/
def patchLow8 (w : Word) (v : Int) : Word := (w &&& (0xFF00 : Word)) ||| (BitVec.ofInt 8 v).zeroExtend 16

/-- The patch of a branch word (R119). -/
def relocateBranch (address : Int) (w : Word) (value : Int) : Except AsmError Word :=
  match branchOffset address value with
  | some offset => .ok (patchLow8 w offset)
  | none => .error .relocationRange

/-- The patch of a word at `address` whose label has the given value (R119, R120). -/
def relocate (address : Int) (w : Word) (value : Int) : Except AsmError Word :=
  match decode w with
  | .ok (.lli _ _) => .ok (patchLow8 w value)
  | .ok (.lui _ _) => .ok (patchLow8 w (value / 256))
  | .ok (.beq _ _) => relocateBranch address w value
  | .ok (.bne _ _) => relocateBranch address w value
  | .ok (.bgt _ _) => relocateBranch address w value
  | .ok (.bge _ _) => relocateBranch address w value
  | .ok (.blt _ _) => relocateBranch address w value
  | .ok (.ble _ _) => relocateBranch address w value
  | _ => .error .labelNotMeaningful

/-- Pass 2 over one placed word. -/
def passTwo (labels : List (String × Int)) (c : Nat × Word × Option String) : Except AsmError (Nat × Word) :=
  match c.2.2 with
  | none => .ok (c.1, c.2.1)
  | some name =>
    match labels.find? (fun l => decide (l.1 = name)) with
    | none => .error (.unresolvedLabel name)
    | some l =>
      match relocate c.1 c.2.1 l.2 with
      | .ok w => .ok (c.1, w)
      | .error e => .error e

/-- Pass 1 over a program: the cursor "starts at 0" (R117). -/
def passOneAll : Pass1 → List Statement → Except AsmError Pass1
  | p, [] => .ok p
  | p, st :: rest =>
    match passOne p st with
    | .ok q => passOneAll q rest
    | .error e => .error e

/-- Pass 2 over all placed words. -/
def passTwoAll (labels : List (String × Int)) :
    List (Nat × Word × Option String) → Except AsmError (List (Nat × Word))
  | [] => .ok []
  | c :: rest =>
    match passTwo labels c, passTwoAll labels rest with
    | .ok w, .ok ws => .ok (w :: ws)
    | .error e, _ => .error e
    | _, .error e => .error e

/-- The image of a program, or the first error; "no partial/best-effort assembly is produced" (R121). -/
def assemble (program : List Statement) : Except AsmError (List (Nat × Word)) :=
  match passOneAll { cursor := 0, labels := [], placed := [] } program with
  | .ok p => passTwoAll p.labels p.placed
  | .error e => .error e

/-- Write an image into memory, cell by cell (R64, R293). -/
def loadImage (image : List (Nat × Word)) (s : State) : State :=
  image.foldl (fun t c => t.memWrite c.1 c.2) s

end Sys2Proof.Machine
end

