-- ==== Sys2Proof/Safety.lean ====
section
/-! DEFINITION. The terms the claims use: the invariant of the machine's data, and what an instruction, an iteration
or a call leaves unchanged. -/

namespace Sys2Proof.Machine

/-- `Str(ws)` carries non-zero Words only (R34). -/
def OutEvent.wellFormed : OutEvent → Prop
  | .num _ _ => True
  | .str ws => ∀ w ∈ ws, w ≠ 0

/-- The invariant of the machine's data: pc is an address (R24), memory and breakpoint bits are held in canonical
form within `MEMLEN` cells (R29), string events hold no zero Word (R34). -/
structure State.Inv (s : State) : Prop where
  pc_inRange : s.pc < config.memLen
  mem_wf : Memory.wf s.mem
  bps_wf : Breakpoints.wf s.bps
  out_wf : ∀ e ∈ s.out, e.wellFormed

/-- Every cell reads as before, data and breakpoint bit. -/
def State.sameCells (s t : State) : Prop :=
  (∀ a : Int, t.memRead a = s.memRead a) ∧ ∀ a : Int, t.bpAt a = s.bpAt a

/-- Every register reads as before. -/
def State.sameRegs (s t : State) : Prop := ∀ r : Reg, t.reg r = s.reg r

/-- Both queues are as before. -/
def State.sameQueues (s t : State) : Prop := t.inQ = s.inQ ∧ t.out = s.out

/-- Status tag, cycle counter and register snapshot are as before. -/
def State.sameControl (s t : State) : Prop :=
  t.status = s.status ∧ t.cycles = s.cycles ∧ t.snapshot = s.snapshot

/-- Register `rd` alone may have changed: it holds `v`, unless it is register 0, which reads 0 (R22). -/
def State.wrote (s t : State) (rd : Reg) (v : Word) : Prop :=
  t.reg .r0 = 0 ∧ (rd ≠ .r0 → t.reg rd = v) ∧ ∀ r : Reg, r ≠ rd → t.reg r = s.reg r

/-- The instruction wrote `v` to `rd`, went on to the next cell, and changed nothing else: every cell, both queues,
status, counter and snapshot are as before. -/
def State.wroteAndAdvanced (s t : State) (rd : Reg) (v : Word) : Prop :=
  s.wrote t rd v ∧ t.pc = (s.pc + 1) % 65536 ∧ s.sameCells t ∧ s.sameQueues t ∧ s.sameControl t

/-- Nothing but pc changed; it is `pc` now. -/
def State.movedTo (s t : State) (pc : Int) : Prop :=
  (t.pc : Int) = pc ∧ s.sameRegs t ∧ s.sameCells t ∧ s.sameQueues t ∧ s.sameControl t

/-- The instruction appended one event, went on to the next cell, and changed nothing else. -/
def State.emittedAndAdvanced (s t : State) (e : OutEvent) : Prop :=
  t.out = s.out ++ [e] ∧ t.inQ = s.inQ ∧ t.pc = (s.pc + 1) % 65536 ∧ s.sameRegs t ∧ s.sameCells t ∧ s.sameControl t

/-- The status is Halted; pc and all else are as before. -/
def State.haltedInPlace (s t : State) : Prop :=
  t.status = .halted ∧ t.pc = s.pc ∧ s.sameRegs t ∧ s.sameCells t ∧ s.sameQueues t ∧
    t.cycles = s.cycles ∧ t.snapshot = s.snapshot

/-- What the program computes with: registers, pc, memory, breakpoint bits, queues and counter are as before; status
and snapshot may differ. -/
def State.sameData (s t : State) : Prop :=
  t.regs = s.regs ∧ t.pc = s.pc ∧ t.mem = s.mem ∧ t.bps = s.bps ∧ t.cycles = s.cycles ∧ t.inQ = s.inQ ∧ t.out = s.out

/-- The state with the parts no program can read replaced: breakpoint bits, cycle counter, snapshot (R35, R37). -/
def State.withHidden (s : State) (bps : Breakpoints) (cycles : Nat) (snapshot : Regs) : State :=
  { s with bps := bps, cycles := cycles, snapshot := snapshot }

/-- A result with its next state changed. -/
def mapNext (f : State → State) : Result → Result
  | .next t => .next (f t)
  | .fault e => .fault e
  | .refused r => .refused r

/-- The state an answer leaves, where it leaves one. -/
def Answer.leaves (t : State) : Answer → Prop
  | .done u => u = t
  | .stopped _ u => u = t
  | .hangs => False
  | .refused _ => False

/-- Run a list of instructions one after the other, stopping at the first that does not answer a next state. -/
def execAll : List Instr → State → Result
  | [], s => .next s
  | i :: rest, s =>
    match exec i s with
    | .next t => execAll rest t
    | .fault e => .fault e
    | .refused r => .refused r

end Sys2Proof.Machine
end

