-- ==== Sys2Proof/Certificates/Slice0/Obligations.lean ====
section
/-! DEFINITION. The statements for the provers. Each docstring names the rule of spec/ it formalises, and the spec's
decision D<n> or the log entry it rests on where it rests on one. -/

open Sys2Proof Sys2Proof.Machine

/-! ## The codec -/

/-- R93: under every legal choice of `OPMAP`, `MATHFN` and `OUTFN`, decoding the word of a well-formed instruction
gives it back; an illegal field's accessor fails; and encoding a decoded instruction gives the word back exactly when
the bits it ignores are 0. (The halt word is no instruction of its own to the codec: R91.) -/
def Obligations.DecodeOfEncodeIsTheInstruction : Prop :=
  (∀ c : Codec, c.Legal → ∀ i : Instr, i.wellFormed = true → i ≠ .halt →
    decodeWith c (encodeWith c i) = .ok i) ∧
  (∀ (i : Instr) (f : Field) (w : Word), i.format.hasField f = false →
    accessField i.format f w = .error (.illegalField i.format f)) ∧
  (∀ (w : Word) (i : Instr), decode w = .ok i → (encode i = w ↔ w &&& i.ignoredBits = 0))

/-- R86: each field stands at its fixed offset, masked to its width; fields not used are 0; an immediate out of range
is truncated, so `lli r1, 0xF0` decodes to -16. -/
def Obligations.EncodedFieldsStandAtTheirOffsets : Prop :=
  (∀ (op : BitVec 4) (rd rs1 rs2 : Reg) (f : BitVec 3), (encodeR op rd rs1 rs2 f).toNat =
    op.toNat * 4096 + rd.toField.toNat * 512 + rs1.toField.toNat * 64 + rs2.toField.toNat * 8 + f.toNat) ∧
  (∀ (op : BitVec 4) (rd rs1 : Reg) (imm : Int), ((encodeImm6 op rd rs1 imm).toNat : Int) =
    op.toNat * 4096 + rd.toField.toNat * 512 + rs1.toField.toNat * 64 + imm % 64) ∧
  (∀ (op : BitVec 4) (rd : Reg) (imm : Int), ((encodeImm8 op rd imm).toNat : Int) =
    op.toNat * 4096 + rd.toField.toNat * 512 + imm % 256) ∧
  (∀ i : Instr, encode i &&& i.ignoredBits = 0) ∧
  decode (encode (.lli .r1 0xF0)) = .ok (.lli .r1 (-16))

/-- R90 with decisions D4 to D6: two words that differ only in ignored bits decode to the same instruction. -/
def Obligations.IgnoredBitsDoNotMatter : Prop :=
  ∀ (w v : Word) (i : Instr), decode w = .ok i → w &&& ~~~i.ignoredBits = v &&& ~~~i.ignoredBits →
    decode v = .ok i

/-- R94, R252 with decision D3: under the default maps the words that decode to nothing are exactly those with opcode
15 and bits 2:0 in 3 to 7, and what a word decodes to is well formed. -/
def Obligations.IllegalWordsAreTheUnassignedSelectors : Prop :=
  (∀ w : Word, decode w = .error .invalidOpcode ↔ 0xF000 ≤ w.toNat ∧ 3 ≤ w.toNat % 8) ∧
  (∀ (w : Word) (i : Instr), decode w = .ok i → i.wellFormed = true)

/-- R91: the sentinel is the word 0xF000 on all 16 bits, found by comparison, not by the opcode table; the codec
itself reads that word as `out r0`. -/
def Obligations.HaltSentinelIsOneWord : Prop :=
  (∀ w : Word, recognise w = .ok .halt ↔ w.toNat = 0xF000) ∧
  (∀ w : Word, w.toNat ≠ 0xF000 → recognise w = decode w) ∧ decode 0xF000 = .ok (.out .r0)

/-- R89, R95 to R97 with decisions D1 to D3: a word on a row of the opcode table, the halt word apart, is recognised
as an instruction with that row's mnemonic, and no word is on two rows. -/
def Obligations.EveryTableRowIsRecognised : Prop :=
  (∀ w : Word, ∀ row ∈ opcodeTable, w &&& row.mask = row.bits → w.toNat ≠ 0xF000 →
    ∃ i, recognise w = .ok i ∧ i.mnemonic = row.mnemonic) ∧
  (∀ w : Word, ∀ row ∈ opcodeTable, ∀ other ∈ opcodeTable, w &&& row.mask = row.bits →
    w &&& other.mask = other.bits → row = other)

/-- R87: sign extension round-trips on every value of a 6-bit and of an 8-bit immediate. -/
def Obligations.SignExtensionRoundTrips : Prop :=
  (∀ n : Int, -32 ≤ n → n ≤ 31 → sext (fieldImm6 (toWord n &&& (0x3F : Word))) = n) ∧
  (∀ n : Int, -128 ≤ n → n ≤ 127 → sext (fieldImm8 (toWord n &&& (0xFF : Word))) = n)

/-- Words written out from the spec's encoding tables (30_encoding.md R81 to R83, R95 to R97; decisions D1 to D3), one
for each family, are recognised as the instructions they stand for. -/
def Obligations.WordsFromTheEncodingTablesDecode : Prop :=
  recognise 0b0000001010011000 = .ok (.add .r1 .r2 .r3) ∧
  recognise 0b0000001010000100 = .ok (.not .r1 .r2) ∧
  recognise 0b0001101111000000 = .ok (.jalr .r5 .r7) ∧
  recognise 0b0010100000000000 = .ok (.inp .r4) ∧
  recognise 0b0011100100111111 = .ok (.addi .r4 .r4 (-1)) ∧
  recognise 0b0110111111100000 = .ok (.sw .r7 .r7 (-32)) ∧
  recognise 0b0111001000110100 = .ok (.lli .r1 0x34) ∧
  recognise 0b1110001010000000 = .ok (.ble .r1 (-128)) ∧
  recognise 0b1111011000000001 = .ok (.outs .r3) ∧
  recognise 0b1111000001000000 = .ok (.out .r0) ∧
  recognise 0b1111000000000000 = .ok .halt ∧
  recognise 0b1111011000000011 = .error .invalidOpcode

/-- R7, D1 to D3, D7: the default parameters are a legal choice. -/
def Obligations.DefaultParametersAreLegal : Prop := config.Legal

/-! ## Registers, memory, breakpoint bits -/

/-- R22: register 0 reads 0 at all times, after any sequence of writes to it and after every instruction; a write to
it changes nothing; and an instruction whose destination is register 0 still has all its other effects: the computing
and loading ones advance, `div` and `mod` where they do not fail, `in r0` dequeues and advances, `jalr rd, r0`
redirects pc, and a step over any of them counts one cycle. -/
def Obligations.RegisterZeroIsImmutable : Prop :=
  (∀ (s : State) (ws : List Word), ws.foldl (fun t w => t.setReg .r0 w) s = s ∧ s.reg .r0 = 0) ∧
  (∀ (i : Instr) (s t : State), exec i s = .next t → t.reg .r0 = 0) ∧
  (∀ (s : State) (a b : Reg) (imm : Int), ∀ i ∈ [Instr.add .r0 a b, .sub .r0 a b, .and .r0 a b, .or .r0 a b,
    .not .r0 a, .mul .r0 a b, .addi .r0 a imm, .shf .r0 a imm, .lw .r0 a imm, .lli .r0 imm, .lui .r0 imm],
    exec i s = .next s.advance) ∧
  (∀ (s : State) (a b : Reg), s.reg b ≠ 0 →
    exec (.div .r0 a b) s = .next s.advance ∧ exec (.mod .r0 a b) s = .next s.advance) ∧
  (∀ (s : State) (v : Word) (rest : List Word), s.inQ = v :: rest →
    exec (.inp .r0) s = .next { s.advance with inQ := rest }) ∧
  (∀ (s : State) (rd : Reg), exec (.jalr rd .r0) s = .next { s with pc := (s.reg rd).toNat }) ∧
  (∀ (s t : State) (i : Instr), s.atBreakpoint = false → recognise s.fetchWord = .ok i → i ≠ .halt →
    step s = .next t → t.cycles = s.cycles + 1)

/-- R52, R53 (with R51's reduction of addresses): a write replaces the data of the one cell its address selects; every
other cell and every breakpoint bit is as before, and so is all other state. Any integer is an address, and truncating
it to a Word first makes no difference: that clause is the spec's own inference in R51 and rests on decision D7 (log
entry 19). -/
def Obligations.WriteThenRead : Prop :=
  ∀ (s : State) (a b : Int) (v : Word),
    (s.memWrite a v).memRead b = (if a % 65536 = b % 65536 then v else s.memRead b) ∧
    (s.memWrite a v).bpAt b = s.bpAt b ∧
    (∃ m, s.memWrite a v = { s with mem := m }) ∧
    s.memRead (toWord b).toNat = s.memRead b

/-- R147: setting and clearing a breakpoint bit changes that one bit and no other state, and the bit is tested by step
1 of the loop only, at pc: the execute rules give the same effects whatever the bits are. -/
def Obligations.BreakpointBitsAreOutOfBand : Prop :=
  (∀ (s : State) (a b : Int),
    (s.setBp a).bpAt b = (decide (a % 65536 = b % 65536) || s.bpAt b) ∧
    (s.clearBp a).bpAt b = (!decide (a % 65536 = b % 65536) && s.bpAt b) ∧
    (∃ l, s.setBp a = { s with bps := l }) ∧ (∃ l, s.clearBp a = { s with bps := l })) ∧
  (∀ (i : Instr) (s : State) (l : Breakpoints),
    exec i { s with bps := l } = mapNext (fun t => { t with bps := l }) (exec i s)) ∧
  (∀ (s : State) (l : Breakpoints), s.bpAt s.pc = false → (∀ b ∈ l, b ≠ s.pc % 65536) →
    step { s with bps := l } = mapNext (fun t => { t with bps := l }) (step s))

/-- R35, R37: no program reads or writes the breakpoint bits, the cycle counter or the snapshot: the effect of every
instruction is the same whatever they hold, and leaves them alone. -/
def Obligations.ProgramsCannotSeeHostState : Prop :=
  ∀ (i : Instr) (s : State) (l : Breakpoints) (n : Nat) (g : Regs),
    exec i (s.withHidden l n g) = mapNext (fun t => t.withHidden l n g) (exec i s)

/-! ## The math group -/

/-- R161, R162, R166: `add`, `sub` and `mul` give the sum, difference and product modulo 2^16, for every destination
(register 0 discards it), and change nothing but rd and pc. (The encodings of the last clauses are the rules' own;
their numbers are the spec's decisions D1 and D2.) -/
def Obligations.AddSubMulWrapAround : Prop :=
  ∀ (rd rs1 rs2 : Reg) (s : State),
    (∃ t, exec (.add rd rs1 rs2) s = .next t ∧ s.wroteAndAdvanced t rd (s.reg rs1 + s.reg rs2)) ∧
    (∃ t, exec (.sub rd rs1 rs2) s = .next t ∧ s.wroteAndAdvanced t rd (s.reg rs1 - s.reg rs2)) ∧
    (∃ t, exec (.mul rd rs1 rs2) s = .next t ∧ s.wroteAndAdvanced t rd (s.reg rs1 * s.reg rs2)) ∧
    encode (.add rd rs1 rs2) = encodeR 0 rd rs1 rs2 0 ∧ encode (.sub rd rs1 rs2) = encodeR 0 rd rs1 rs2 1 ∧
    encode (.mul rd rs1 rs2) = encodeR 0 rd rs1 rs2 5

/-- R163, R164: `and` and `or` act on each of the 16 bits, and change nothing but rd and pc. (The numbers in their
encodings are the spec's decisions D1 and D2.) -/
def Obligations.AndOrActBitwise : Prop :=
  ∀ (rd rs1 rs2 : Reg) (s : State),
    (∃ t v, exec (.and rd rs1 rs2) s = .next t ∧ s.wroteAndAdvanced t rd v ∧
      ∀ k < 16, v.getLsbD k = ((s.reg rs1).getLsbD k && (s.reg rs2).getLsbD k)) ∧
    (∃ t v, exec (.or rd rs1 rs2) s = .next t ∧ s.wroteAndAdvanced t rd v ∧
      ∀ k < 16, v.getLsbD k = ((s.reg rs1).getLsbD k || (s.reg rs2).getLsbD k)) ∧
    encode (.and rd rs1 rs2) = encodeR 0 rd rs1 rs2 2 ∧ encode (.or rd rs1 rs2) = encodeR 0 rd rs1 rs2 3

/-- R165 with decision D6: `not` complements each bit of rs1, and changes nothing but rd and pc. -/
def Obligations.NotComplementsEveryBit : Prop :=
  ∀ (rd rs1 : Reg) (s : State), ∃ t v, exec (.not rd rs1) s = .next t ∧ s.wroteAndAdvanced t rd v ∧
    ∀ k < 16, v.getLsbD k = !(s.reg rs1).getLsbD k

/-- R167, R168, R169 with decision D8: for a divisor that is not zero, `div` and `mod` write a quotient q and a
remainder r with `a = q*b + r`, `|r| < |b|` and r of the dividend's sign or 0, each modulo 2^16, and change nothing
but rd and pc. -/
def Obligations.DivModTruncateTowardZero : Prop :=
  ∀ (rd rs1 rs2 : Reg) (s : State), s.reg rs2 ≠ 0 →
    ∃ q r : Int, (s.reg rs1).toInt = q * (s.reg rs2).toInt + r ∧ r.natAbs < (s.reg rs2).toInt.natAbs ∧
      (r ≠ 0 → r.sign = (s.reg rs1).toInt.sign) ∧
      (∃ t, exec (.div rd rs1 rs2) s = .next t ∧ s.wroteAndAdvanced t rd (BitVec.ofInt 16 q)) ∧
      (∃ t, exec (.mod rd rs1 rs2) s = .next t ∧ s.wroteAndAdvanced t rd (BitVec.ofInt 16 r))

/-- R253 with decision D9: a zero divisor raises `DivideByZeroError` for every destination, register 0 included, and a
run that meets one ends with that fault and no effect of the instruction. -/
def Obligations.ZeroDivisorFaults : Prop :=
  ∀ (rd rs1 rs2 : Reg) (s : State), s.reg rs2 = 0 →
    exec (.div rd rs1 rs2) s = .fault (.error .divideByZero) ∧
    exec (.mod rd rs1 rs2) s = .fault (.error .divideByZero) ∧
    ∀ n : Nat, s.atBreakpoint = false →
      (recognise s.fetchWord = .ok (.div rd rs1 rs2) ∨ recognise s.fetchWord = .ok (.mod rd rs1 rs2)) →
      ∃ t, runCall (n + 1) s = .returned (.fault .divideByZero) t ∧ s.sameData t ∧ t.status = .running

/-! ## Jump and link -/

/-- R180 with decisions D19, D20: `jalr` jumps to the value rd had, and rs1 receives the address of the next cell,
also when the two are one register. -/
def Obligations.JalrLinksAndJumps : Prop :=
  ∀ (rd rs1 : Reg) (s : State), ∃ t, exec (.jalr rd rs1) s = .next t ∧
    t.pc = (s.reg rd).toNat ∧ s.wrote t rs1 (BitVec.ofNat 16 (s.pc + 1)) ∧ s.sameCells t ∧ s.sameQueues t ∧
    s.sameControl t

/-! ## Input, output, halt -/

/-- R185: `in` moves the head of the queue to rd and leaves all else but pc; with an empty queue it raises
`InputExhaustedError`, for every destination, and a run that meets one ends with that fault and no effect. -/
def Obligations.InTakesTheHeadOfTheQueue : Prop :=
  ∀ (rd : Reg) (s : State),
    (∀ (v : Word) (rest : List Word), s.inQ = v :: rest → ∃ t, exec (.inp rd) s = .next t ∧
      s.wrote t rd v ∧ t.inQ = rest ∧ t.pc = (s.pc + 1) % 65536 ∧ s.sameCells t ∧ t.out = s.out ∧ s.sameControl t) ∧
    (s.inQ = [] → exec (.inp rd) s = .fault (.error .inputExhausted) ∧
      ∀ n : Nat, s.atBreakpoint = false → recognise s.fetchWord = .ok (.inp rd) →
        ∃ t, runCall (n + 1) s = .returned (.fault .inputExhausted) t ∧ s.sameData t ∧ t.status = .running)

/-- R33, R185: `in` instructions drain the queue in order: with the queue `[a, b, c] ++ rest`, three of them with
different destinations leave a, b, c in them. -/
def Obligations.InputsArriveInOrder : Prop :=
  ∀ (s : State) (a b c : Word) (rest : List Word) (x y z : Reg), s.inQ = a :: b :: c :: rest →
    x ≠ .r0 → y ≠ .r0 → z ≠ .r0 → x ≠ y → y ≠ z → x ≠ z →
    ∃ t, execAll [.inp x, .inp y, .inp z] s = .next t ∧ t.reg x = a ∧ t.reg y = b ∧ t.reg z = c ∧ t.inQ = rest

/-- R187, R189 with decision D12: `out` and `outn` of a register other than 0 append one event with the register's
Word, a zero Word too, and change nothing but the output and pc. -/
def Obligations.OutAndOutnEmitTheWord : Prop :=
  ∀ (rd : Reg) (s : State), rd ≠ .r0 →
    (∃ t, exec (.out rd) s = .next t ∧ s.emittedAndAdvanced t (.num .out (s.reg rd))) ∧
    (∃ t, exec (.outn rd) s = .next t ∧ s.emittedAndAdvanced t (.num .outn (s.reg rd)))

/-- R188 with decision D12: where `n` non-zero cells and then a zero cell follow from the address in rd, wrapping at
the end of memory, `outs` appends the string of those n Words and changes nothing but the output and pc. -/
def Obligations.OutsEmitsTheString : Prop :=
  ∀ (rd : Reg) (s : State) (n : Nat), rd ≠ .r0 → (∀ i : Nat, i < n → s.memRead ((s.reg rd).toNat + i) ≠ 0) →
    s.memRead ((s.reg rd).toNat + n) = 0 →
    ∃ t, exec (.outs rd) s = .next t ∧
      s.emittedAndAdvanced t (.str ((List.range n).map (fun i : Nat => s.memRead ((s.reg rd).toNat + (i : Int)))))

/-- R188 with decision D11: `outs` of a register other than 0 never completes exactly when no cell of memory is zero,
and it completes as soon as one is. -/
def Obligations.OutsHangsOnlyWithoutAZeroCell : Prop :=
  ∀ (rd : Reg) (s : State), rd ≠ .r0 →
    (exec (.outs rd) s = .fault .outsHang ↔ ∀ a : Nat, a < 65536 → s.memRead a ≠ 0) ∧
    ((∃ a : Int, s.memRead a = 0) → ∃ t, exec (.outs rd) s = .next t)

/-- R186 (the selectors are decision D3): an out-family instruction with rd = 0 sets the status to Halted, leaves pc
and all else, and produces no event; the test is on the register's number. -/
def Obligations.OutOfRegisterZeroHalts : Prop :=
  ∀ s : State,
    (∃ t, exec (.out .r0) s = .next t ∧ s.haltedInPlace t) ∧ (∃ t, exec (.outs .r0) s = .next t ∧ s.haltedInPlace t) ∧
    (∃ t, exec (.outn .r0) s = .next t ∧ s.haltedInPlace t)

/-- R137, with decision D3 for which words these are: a run that meets an out-family word with rd = 0 other than
0xF000 returns Halted, pc unchanged, having counted one cycle. -/
def Obligations.HaltByExecutionCountsACycle : Prop :=
  ∀ (s : State) (n : Nat) (i : Instr), s.atBreakpoint = false → recognise s.fetchWord = .ok i →
    i ∈ [Instr.out .r0, .outs .r0, .outn .r0] →
    ∃ t, runCall (n + 1) s = .returned .halted t ∧ t.cycles = s.cycles + 1 ∧ t.status = .halted ∧ t.pc = s.pc ∧
      s.sameRegs t ∧ s.sameCells t ∧ s.sameQueues t

/-- R135, R144, R190 with decision D13: the halt sentinel leaves everything but the status, which is Halted; a run
that meets it returns Halted with pc on the word and no cycle counted, and so does every further run. -/
def Obligations.HaltSentinelStopsWithoutACycle : Prop :=
  (∀ s : State, ∃ t, exec .halt s = .next t ∧ s.haltedInPlace t) ∧
  (∀ (s : State) (n : Nat), s.atBreakpoint = false → s.fetchWord.toNat = 0xF000 →
    ∃ t, runCall (n + 1) s = .returned .halted t ∧ s.sameData t ∧ t.status = .halted) ∧
  (∀ (s : State) (n m : Nat), s.bpAt s.pc = false → s.fetchWord.toNat = 0xF000 →
    ∃ t, runCall (n + 1) s = .returned .halted t ∧ runCall (m + 1) t = .returned .halted t)

/-! ## Immediate arithmetic -/

/-- R200: `addi` adds the signed immediate modulo 2^16, and changes nothing but rd and pc. (Its opcode number is the
default of decision D1.) -/
def Obligations.AddiAddsTheSignedImmediate : Prop :=
  ∀ (rd rs1 : Reg) (imm : Int) (s : State),
    (∃ t v, exec (.addi rd rs1 imm) s = .next t ∧ s.wroteAndAdvanced t rd v ∧
      (v.toNat : Int) = ((s.reg rs1).toNat + imm) % 65536) ∧
    encode (.addi rd rs1 imm) = encodeImm6 3 rd rs1 imm

/-- R201 with decision D10: `shf` by n > 0 moves every bit n places left, by n ≤ 0 it moves every bit -n places right;
zeros come in at either end, a count of 16 or more leaves nothing; nothing but rd and pc changes. -/
def Obligations.ShfMovesEveryBit : Prop :=
  ∀ (rd rs1 : Reg) (n : Nat) (s : State),
    (∃ t v, exec (.shf rd rs1 (n : Int)) s = .next t ∧ s.wroteAndAdvanced t rd v ∧
      ∀ k < 16, v.getLsbD k = (decide (n ≤ k) && (s.reg rs1).getLsbD (k - n))) ∧
    (∃ t v, exec (.shf rd rs1 (-(n : Int))) s = .next t ∧ s.wroteAndAdvanced t rd v ∧
      ∀ k < 16, v.getLsbD k = (s.reg rs1).getLsbD (k + n))

/-! ## Load and store -/

/-- R211: `lw` loads the whole cell at rs1 plus the displacement, wrapping at both ends of memory, and changes nothing
but rd and pc. (Its opcode number is the default of decision D1.) -/
def Obligations.LwLoadsTheCell : Prop :=
  ∀ (rd rs1 : Reg) (imm : Int) (s : State),
    (∃ t, exec (.lw rd rs1 imm) s = .next t ∧
      s.wroteAndAdvanced t rd (s.memRead (((s.reg rs1).toNat + imm) % 65536))) ∧
    encode (.lw rd rs1 imm) = encodeImm6 5 rd rs1 imm

/-- R212: `sw` stores rd to the cell its effective address selects; every other cell, every breakpoint bit, every
register, both queues and the control state are as before. (Its opcode number is the default of decision D1.) -/
def Obligations.SwStoresTheCell : Prop :=
  ∀ (rd rs1 : Reg) (imm : Int) (s : State),
    (∃ t, exec (.sw rd rs1 imm) s = .next t ∧ t.memRead (s.effAddr rs1 imm) = s.reg rd ∧
      (∀ a : Int, addrOf a ≠ addrOf (s.effAddr rs1 imm) → t.memRead a = s.memRead a) ∧
      (∀ a : Int, t.bpAt a = s.bpAt a) ∧ t.pc = (s.pc + 1) % 65536 ∧ s.sameRegs t ∧ s.sameQueues t ∧
      s.sameControl t) ∧
    addrOf (s.effAddr rs1 imm) = (((s.reg rs1).toNat + imm) % 65536).toNat ∧
    encode (.sw rd rs1 imm) = encodeImm6 6 rd rs1 imm

/-- R69: a store to the next cell is what the next fetch reads, and if it stores 0xF000 the next iteration stops with
reason Halted. -/
def Obligations.StoreIsSeenByTheNextFetch : Prop :=
  ∀ (s : State) (rd rs1 : Reg) (imm : Int), s.atBreakpoint = false →
    recognise s.fetchWord = .ok (.sw rd rs1 imm) → addrOf (s.effAddr rs1 imm) = (s.pc + 1) % 65536 →
    s.bpAt (s.pc + 1 : Nat) = false →
    ∃ t, step s = .next t ∧ t.fetchWord = s.reg rd ∧
      ((s.reg rd).toNat = 0xF000 → ∃ u, runCall 2 s = .returned .halted u ∧ u.cycles = s.cycles + 1)

/-! ## Load immediates -/

/-- R220: `lli` writes all 16 bits of rd: the signed value of the register is the immediate; nothing but rd and pc
changes. (Its opcode number and its unused bit 8 are decisions D1 and D5.) -/
def Obligations.LliSignExtends : Prop :=
  ∀ (rd : Reg) (imm : Int) (s : State),
    ((Instr.lli rd imm).wellFormed = true →
      ∃ t v, exec (.lli rd imm) s = .next t ∧ s.wroteAndAdvanced t rd v ∧ v.toInt = imm) ∧
    encode (.lli rd imm) = encodeImm8 7 rd imm

/-- R221: `lui` puts the 8 bits of its immediate into bits 15:8 of rd and keeps bits 7:0; nothing but rd and pc
changes. (Its opcode number and its unused bit 8 are decisions D1 and D5.) -/
def Obligations.LuiReplacesTheHighByte : Prop :=
  ∀ (rd : Reg) (imm : Int) (s : State),
    (∃ t v, exec (.lui rd imm) s = .next t ∧ s.wroteAndAdvanced t rd v ∧
      (v.toNat : Int) = (imm % 256) * 256 + (s.reg rd).toNat % 256) ∧
    encode (.lui rd imm) = encodeImm8 8 rd imm

/-- R222, R114: the two words of `lwi rd, c` leave c in rd, for every 16-bit constant, and are well formed. -/
def Obligations.LwiLoadsEveryConstant : Prop :=
  ∀ (rd : Reg) (c : Int) (s : State), rd ≠ .r0 → 0 ≤ c → c < 65536 →
    (∀ i ∈ (PseudoOp.lwi rd c).expand, i.wellFormed = true) ∧
    ∃ t, execAll (PseudoOp.lwi rd c).expand s = .next t ∧ ((t.reg rd).toNat : Int) = c ∧
      (∀ r : Reg, r ≠ rd → t.reg r = s.reg r) ∧ t.pc = (s.pc + 2) % 65536

/-! ## Branches -/

/-- R231, R232 (with R230): `beq` is taken for the Word 0 alone, `bne` for every other; a taken branch goes to the
next cell plus the signed offset, wrapping at both ends; nothing but pc changes. (The opcode numbers are the defaults
of decision D1.) -/
def Obligations.BeqBneTestForZero : Prop :=
  ∀ (rd : Reg) (imm : Int) (s : State),
    (∃ t, exec (.beq rd imm) s = .next t ∧
      s.movedTo t (if (s.reg rd).toNat = 0 then (s.pc + 1 + imm) % 65536 else (s.pc + 1) % 65536)) ∧
    (∃ t, exec (.bne rd imm) s = .next t ∧
      s.movedTo t (if (s.reg rd).toNat = 0 then (s.pc + 1) % 65536 else (s.pc + 1 + imm) % 65536)) ∧
    encode (.beq rd imm) = encodeImm8 9 rd imm ∧ encode (.bne rd imm) = encodeImm8 10 rd imm

/-- R233 to R236 (with R230): the ordered branches test the signed value: `bgt` is taken for 1 to 0x7FFF, `bge` for 0
to 0x7FFF, `blt` for 0x8000 to 0xFFFF, `ble` for 0 and 0x8000 to 0xFFFF; nothing but pc changes. (The opcode numbers
are the defaults of decision D1.) -/
def Obligations.OrderedBranchesTestTheSignedValue : Prop :=
  ∀ (rd : Reg) (imm : Int) (s : State),
    (∃ t, exec (.bgt rd imm) s = .next t ∧ s.movedTo t
      (if 1 ≤ (s.reg rd).toNat ∧ (s.reg rd).toNat ≤ 0x7FFF then (s.pc + 1 + imm) % 65536 else (s.pc + 1) % 65536)) ∧
    (∃ t, exec (.bge rd imm) s = .next t ∧ s.movedTo t
      (if (s.reg rd).toNat ≤ 0x7FFF then (s.pc + 1 + imm) % 65536 else (s.pc + 1) % 65536)) ∧
    (∃ t, exec (.blt rd imm) s = .next t ∧ s.movedTo t
      (if 0x8000 ≤ (s.reg rd).toNat then (s.pc + 1 + imm) % 65536 else (s.pc + 1) % 65536)) ∧
    (∃ t, exec (.ble rd imm) s = .next t ∧ s.movedTo t
      (if (s.reg rd).toNat = 0 ∨ 0x8000 ≤ (s.reg rd).toNat then (s.pc + 1 + imm) % 65536
        else (s.pc + 1) % 65536)) ∧
    encode (.bgt rd imm) = encodeImm8 11 rd imm ∧ encode (.bge rd imm) = encodeImm8 12 rd imm ∧
    encode (.blt rd imm) = encodeImm8 13 rd imm ∧ encode (.ble rd imm) = encodeImm8 14 rd imm

/-- R119, in the spec's own reading of its wrap-around correction (an offset of half the memory or more loses the
memory length; none is added), against R230: for each of the six branches and every register, the word that waits for
a label is patched to the branch with the computed offset; executed at its address that branch goes to the label
exactly where its condition holds, else to the next cell, and changes nothing else; and where no offset fits, the
patch fails as too far. -/
def Obligations.RelocatedBranchReachesItsLabel : Prop :=
  ∀ (address target : Nat) (rd : Reg) (s : State), address < 65536 → target < 65536 → s.pc = address →
    ∀ b ∈ [(Instr.beq rd, condEq), (Instr.bne rd, condNe), (Instr.bgt rd, condGt), (Instr.bge rd, condGe),
      (Instr.blt rd, condLt), (Instr.ble rd, condLe)],
    (∀ offset : Int, branchOffset address target = some offset →
      relocate address (encode (b.1 0)) target = .ok (encode (b.1 offset)) ∧
      ∃ t, exec (b.1 offset) s = .next t ∧
        s.movedTo t (if b.2 (s.reg rd).toInt then (target : Int) else ((address : Int) + 1) % 65536)) ∧
    (branchOffset address target = none → relocate address (encode (b.1 0)) target = .error .relocationRange)

/-! ## What the whole instruction set does and does not do -/

/-- R250 to R253, R188 with decisions D9, D11: an instruction fails in these cases only: `in` on an empty queue, `div`
or `mod` with a zero divisor, `outs` of a register other than 0 when no cell is zero; and the model refuses none. -/
def Obligations.InstructionsFailOnlyAsListed : Prop :=
  ∀ (i : Instr) (s : State), (∀ r, exec i s ≠ .refused r) ∧
    (exec i s = .fault (.error .inputExhausted) ↔ (∃ rd, i = .inp rd) ∧ s.inQ = []) ∧
    (exec i s = .fault (.error .divideByZero) ↔
      ∃ rd rs1 rs2, (i = .div rd rs1 rs2 ∨ i = .mod rd rs1 rs2) ∧ s.reg rs2 = 0) ∧
    (exec i s = .fault .outsHang ↔ (∃ rd, i = .outs rd ∧ rd ≠ .r0) ∧ ∀ a : Int, s.memRead a ≠ 0) ∧
    exec i s ≠ .fault (.error .invalidOpcode)

/-- R54, R61, R28: no instruction but `sw` changes the data of any cell, and none changes a breakpoint bit. -/
def Obligations.OnlySwWritesMemory : Prop :=
  ∀ (i : Instr) (s t : State), exec i s = .next t →
    t.bps = s.bps ∧ ((∀ rd rs1 imm, i ≠ .sw rd rs1 imm) → t.mem = s.mem)

/-- R33, R34, R30 with decisions D12, D13: only `in` changes the input queue, taking its head; only the out family
changes the output, by one event at its end; only the halt convention changes the status. -/
def Obligations.QueuesAndStatusHaveOneWriterEach : Prop :=
  ∀ (i : Instr) (s t : State), exec i s = .next t →
    (t.inQ = s.inQ ∨ ∃ rd v, i = .inp rd ∧ s.inQ = v :: t.inQ) ∧
    (t.out = s.out ∨ ∃ rd e, (i = .out rd ∨ i = .outs rd ∨ i = .outn rd) ∧ rd ≠ .r0 ∧ t.out = s.out ++ [e]) ∧
    (t.status = s.status ∨ (t.status = .halted ∧ i ∈ [Instr.out .r0, .outs .r0, .outn .r0, .halt])) ∧
    t.cycles = s.cycles ∧ t.snapshot = s.snapshot

/-! ## The loop -/

/-- R134 to R136: a step at a state that is not stopped by a breakpoint sets the status to Running, takes the
snapshot, and runs exactly the instruction the word at pc stands for; it counts one cycle unless that is the halt
sentinel. The instruction so recognised is well formed. That a step is one iteration of the loop is the model's choice
(log entry 5). -/
def Obligations.StepRunsTheRecognisedInstruction : Prop :=
  ∀ (s : State) (i : Instr), s.atBreakpoint = false → recognise (s.memRead s.pc) = .ok i →
    i.wellFormed = true ∧
    step s = mapNext (fun t => if i = .halt then t else { t with cycles := t.cycles + 1 })
      (exec i { s with status := .running, snapshot := s.regs })

/-- R252 with decision D14: a step that fetches a word with no matching definition is the fault `InvalidOpcodeError`;
a run ends with it, status Running, and no other change (log entry 13). That a step is one iteration of the loop is
the model's choice (log entry 5). -/
def Obligations.IllegalWordFaultsAtDecode : Prop :=
  ∀ (s : State) (n : Nat), s.atBreakpoint = false → recognise s.fetchWord = .error .invalidOpcode →
    step s = .fault (.error .invalidOpcode) ∧
    runCall (n + 1) s = .returned (.fault .invalidOpcode) { s with status := .running }

/-- R133: where the cell at pc has its breakpoint bit set and the status is not Paused, a run stops with reason
Breakpoint, having changed the status tag to Paused and nothing else; from Paused the same breakpoint never stops the
first iteration; and on every later iteration of a call the status the test finds is Running. That the model's `step`
answers the state so left, as a next state, is the model's choice (log entry 5). -/
def Obligations.BreakpointStopsBeforeExecuting : Prop :=
  (∀ (s : State) (n : Nat), s.bpAt s.pc = true → s.status ≠ .paused →
    runCall (n + 1) s = .returned .breakpoint { s with status := .paused } ∧
    step s = .next { s with status := .paused }) ∧
  (∀ (s t : State), s.status = .paused → stepCall s ≠ .returned .breakpoint t) ∧
  (∀ (s t : State), iterate s = .continues t → t.status = .running)

/-- R32, R133, R135, R136 with decision D18: a step counts one cycle if it dispatched an instruction, none at a
breakpoint or on the halt sentinel. That a step is one iteration of the loop is the model's choice (log entry 5). -/
def Obligations.CycleCounterCountsDispatches : Prop :=
  ∀ s t : State, step s = .next t →
    t.cycles = s.cycles + (if s.atBreakpoint = true ∨ s.fetchWord.toNat = 0xF000 then 0 else 1)

/-- R133, R135 to R141 with decisions D13, D14, D15, D18 (log entries 13, 14, 15, 18): a run with budget n that
returns CyclesExceeded has counted exactly n cycles and left status Paused; whatever a run returns, it has counted at
most n, and fewer when it ends with a fault or at a breakpoint; the status tag agrees with the reason: Halted after a
halt (R135 with D13 for the sentinel, R137 for a halt by execution), Paused at a breakpoint (R133), Running after a
fault (R141 with D14); a budget of zero or less executes nothing. -/
def Obligations.BudgetIsCountedExactly : Prop :=
  (∀ (n : Nat) (s t : State), runCall n s = .returned .cyclesExceeded t →
    t.cycles = s.cycles + n ∧ t.status = .paused) ∧
  (∀ (n : Nat) (s t : State) (r : StopReason), runCall n s = .returned r t →
    s.cycles ≤ t.cycles ∧ t.cycles ≤ s.cycles + n ∧
      (r = .halted → t.status = .halted) ∧ (r = .breakpoint → t.status = .paused ∧ t.cycles < s.cycles + n) ∧
      (∀ e, r = .fault e → t.status = .running ∧ t.cycles < s.cycles + n)) ∧
  (∀ (n : Int) (s : State), n ≤ 0 → runCall n s = .returned .cyclesExceeded { s with status := .paused })

/-- R141, R256, R261 with decision D14: when an iteration ends with a fatal error, registers, pc, memory, breakpoint
bits, counter and both queues are as they were when it began and the status is Running; run again without a breakpoint
at pc, it fails the same way. -/
def Obligations.FaultsArePrecise : Prop :=
  ∀ (s t : State) (e : ExecError), iterate s = .faulted e t →
    s.sameData t ∧ t.status = .running ∧ (s.bpAt s.pc = false → ∃ u, iterate t = .faulted e u ∧ s.sameData u)

/-- R145: with no breakpoint bit set, splitting a run changes nothing: if `Run(n)` returns CyclesExceeded, then
`Run(m)` from there returns what `Run(n + m)` returns from the start, the same reason and the same state. -/
def Obligations.SplittingARunChangesNothing : Prop :=
  ∀ (s t : State) (n m : Nat), s.bps = [] → runCall n s = .returned .cyclesExceeded t →
    runCall m t = runCall (n + m : Nat) s

/-- R144: a halted machine halts again: a further run without a breakpoint at pc returns Halted with registers, pc,
memory and queues unchanged, counting one cycle more at most. -/
def Obligations.HaltedMachineHaltsAgain : Prop :=
  ∀ (s t : State) (n m : Nat), runCall n s = .returned .halted t → t.bpAt t.pc = false →
    ∃ u, runCall (m + 1) t = .returned .halted u ∧ u.regs = t.regs ∧ u.pc = t.pc ∧ u.mem = t.mem ∧
      u.inQ = t.inQ ∧ u.out = t.out ∧ u.cycles ≤ t.cycles + 1

/-- R142 with R134 to R137, R141, R252, R259 and decisions D14, D18 (log entries 13, 18): a breakpoint stops a run
once per arrival: when a run has stopped with reason Breakpoint, the status is Paused and the bit at pc is set, and
the next run executes the instruction at pc: its first iteration is the dispatch of that very instruction, whatever
the breakpoint, or the decode error of that very word, which leaves the state as it was with status Running (R134,
R252, D14); where the instruction completes without halting, the rest of the run goes on from the state it leaves,
with one cycle counted; and what the run returns has counted a cycle, unless it stopped on the halt sentinel at pc or
its first iteration failed. -/
def Obligations.BreakpointStopsOncePerArrival : Prop :=
  ∀ (s t : State) (n : Nat), runCall n s = .returned .breakpoint t →
    t.bpAt t.pc = true ∧ t.status = .paused ∧ t.atBreakpoint = false ∧
    (∀ i : Instr, recognise t.fetchWord = .ok i →
      iterate t = dispatch i { t with status := .running, snapshot := t.regs }) ∧
    (recognise t.fetchWord = .error .invalidOpcode →
      iterate t = .faulted .invalidOpcode { t with status := .running }) ∧
    (∀ (i : Instr) (v : State) (m : Nat), recognise t.fetchWord = .ok i → i ≠ .halt →
      exec i { t with status := .running, snapshot := t.regs } = .next v → v.status ≠ .halted →
      runCall (m + 1) t = runCall m { v with cycles := v.cycles + 1 }) ∧
    (∀ (m : Nat) (r : StopReason) (u : State), runCall (m + 1) t = .returned r u →
      t.cycles < u.cycles ∨ (r = .halted ∧ t.fetchWord.toNat = 0xF000) ∨
        ∃ e, r = .fault e ∧ iterate t = .faulted e u)

/-! ## Reset, the invariant, the host -/

/-- R290, R40, R292 with decisions D16, D17: `Reset(inputs)` zeroes registers, pc and counter, sets the status to
Halted, loads the input queue, empties the output, and keeps every cell and breakpoint bit; from a machine just
powered on, whatever else it held, `Reset([])` gives `State.reset`. (The snapshot's zeros are the model's choice: log
entry 3; the empty input list of `State.reset` too: log entry 4.) -/
def Obligations.ResetInstallsTheResetValues : Prop :=
  (∀ (inputs : List Word) (s t : State), perform (.reset inputs) s = .done t →
    (∀ r : Reg, t.reg r = 0) ∧ t.pc = 0 ∧ t.cycles = 0 ∧ t.status = .halted ∧ t.inQ = inputs ∧ t.out = [] ∧
      s.sameCells t) ∧
  (∀ s : State, s.poweredOn → perform (.reset []) s = .done State.reset)

/-- The machine right after reset meets the invariant (R24, R29, R34). -/
def Obligations.ResetMeetsTheInvariant : Prop := State.reset.Inv

/-- R24, R26, R29, R34: from every state that meets the invariant, a step that answers a next state gives one that
meets it: pc stays an address, memory and breakpoint bits stay in canonical form, string events hold no zero Word. -/
def Obligations.StepKeepsTheInvariant : Prop :=
  ∀ s t : State, s.Inv → Sys2Proof.Machine.step s = .next t → t.Inv

/-- R130, R145, R298 with decisions D16, D23, D26: any sequence of host transactions, runs of any budget among them,
keeps the invariant. -/
def Obligations.HostSessionsKeepTheInvariant : Prop :=
  ∀ (calls : List HostCall) (s t : State), s.Inv → (session calls s).leaves t → t.Inv
end

