-- ==== Sys2Proof/Laws/Codec.lean ====
section
/-! SUPPORT. Lemmas of the codec: what each field of an encoded word is, that sign extension and the register
numbers round-trip, and that a lookup under an injective map finds the name it came from. -/

namespace Sys2Proof

/-! ## Registers and immediates -/

@[simp] theorem Reg.ofField_toField (r : Reg) : Reg.ofField r.toField = r := by cases r <;> rfl

@[simp] theorem Reg.toField_ofField (f : BitVec 3) : (Reg.ofField f).toField = f := by
  revert f; decide

theorem sext_eq_toInt {n : Nat} (f : BitVec (n + 1)) : sext f = f.toInt := by
  unfold sext
  rw [BitVec.toInt_eq_toNat_cond]
  have h2 : (2 : Nat) ^ (n + 1) = 2 * 2 ^ n := by rw [Nat.pow_succ, Nat.mul_comm]
  have h3 : ((2 ^ (n + 1) : Nat) : Int) = (2 : Int) ^ (n + 1) := by push_cast; rfl
  simp only [Nat.add_sub_cancel, h2]
  by_cases h : f.toNat < 2 ^ n
  · rw [if_pos h, if_pos (by omega)]
  · rw [if_neg h, if_neg (by omega), ← h2, h3]

/-- An immediate that fits its field is what the masked field sign-extends to (R85 to R87). -/
theorem sext_ofInt {n : Nat} (v : Int) (h : fitsSigned (n + 1) v = true) :
    sext (BitVec.ofInt (n + 1) v) = v := by
  simp only [fitsSigned, Nat.add_sub_cancel, Bool.and_eq_true, decide_eq_true_eq] at h
  rw [sext_eq_toInt, BitVec.toInt_ofInt]
  have h2 : ((2 ^ (n + 1) : Nat) : Int) = 2 * (2 : Int) ^ n := by push_cast; ring
  apply Int.bmod_eq_of_le
  · rw [h2]; omega
  · rw [h2]; omega

/-- A field's sign extension fits the field (R85). -/
theorem fitsSigned_sext {n : Nat} (f : BitVec (n + 1)) : fitsSigned (n + 1) (sext f) = true := by
  have h := f.isLt
  have h2 : (2 : Nat) ^ (n + 1) = 2 * 2 ^ n := by rw [Nat.pow_succ, Nat.mul_comm]
  have h3 : ((2 ^ n : Nat) : Int) = (2 : Int) ^ n := by push_cast; rfl
  simp only [fitsSigned, sext, Nat.add_sub_cancel, Bool.and_eq_true, decide_eq_true_eq]
  have h4 : (2 : Int) ^ (n + 1) = 2 * (2 : Int) ^ n := by ring
  split <;> constructor <;> omega

theorem ofInt_sext {n : Nat} (f : BitVec (n + 1)) : BitVec.ofInt (n + 1) (sext f) = f := by
  rw [sext_eq_toInt, BitVec.ofInt_toInt]

/-! ## Lookups (R89) -/

theorem Codec.groupOf_opMap {c : Codec} (h : c.Legal) (g : OpGroup) : c.groupOf (c.opMap g) = some g := by
  have key : ∀ x : OpGroup, (c.opMap x = c.opMap g) = (x = g) :=
    fun x => propext h.opMap_injective.eq_iff
  unfold Codec.groupOf
  simp only [key]
  cases g <;> rfl

theorem Codec.mathOf_mathFn {c : Codec} (h : c.Legal) (m : MathOp) : c.mathOf (c.mathFn m) = some m := by
  have key : ∀ x : MathOp, (c.mathFn x = c.mathFn m) = (x = m) :=
    fun x => propext h.mathFn_injective.eq_iff
  unfold Codec.mathOf
  simp only [key]
  cases m <;> rfl

theorem Codec.outOf_outFn {c : Codec} (h : c.Legal) (m : OutOp) : c.outOf (c.outFn m) = some m := by
  have key : ∀ x : OutOp, (c.outFn x = c.outFn m) = (x = m) :=
    fun x => propext h.outFn_injective.eq_iff
  unfold Codec.outOf
  simp only [key]
  cases m <;> rfl

/-! ## Fields of an encoded word (R81 to R84, R86) -/

@[simp] theorem fieldOpcode_encodeR (op : BitVec 4) (rd rs1 rs2 : Reg) (f : BitVec 3) :
    fieldOpcode (encodeR op rd rs1 rs2 f) = op := by
  unfold fieldOpcode encodeR
  ext i hi
  have : i = 0 ∨ i = 1 ∨ i = 2 ∨ i = 3 := by omega
  rcases this with rfl | rfl | rfl | rfl <;> simp

@[simp] theorem fieldRd_encodeR (op : BitVec 4) (rd rs1 rs2 : Reg) (f : BitVec 3) :
    fieldRd (encodeR op rd rs1 rs2 f) = rd.toField := by
  unfold fieldRd encodeR
  ext i hi
  have : i = 0 ∨ i = 1 ∨ i = 2 := by omega
  rcases this with rfl | rfl | rfl <;> simp

@[simp] theorem fieldRs1_encodeR (op : BitVec 4) (rd rs1 rs2 : Reg) (f : BitVec 3) :
    fieldRs1 (encodeR op rd rs1 rs2 f) = rs1.toField := by
  unfold fieldRs1 encodeR
  ext i hi
  have : i = 0 ∨ i = 1 ∨ i = 2 := by omega
  rcases this with rfl | rfl | rfl <;> simp

@[simp] theorem fieldRs2_encodeR (op : BitVec 4) (rd rs1 rs2 : Reg) (f : BitVec 3) :
    fieldRs2 (encodeR op rd rs1 rs2 f) = rs2.toField := by
  unfold fieldRs2 encodeR
  ext i hi
  have : i = 0 ∨ i = 1 ∨ i = 2 := by omega
  rcases this with rfl | rfl | rfl <;> simp

@[simp] theorem fieldSubfunc_encodeR (op : BitVec 4) (rd rs1 rs2 : Reg) (f : BitVec 3) :
    fieldSubfunc (encodeR op rd rs1 rs2 f) = f := by
  unfold fieldSubfunc encodeR
  ext i hi
  have : i = 0 ∨ i = 1 ∨ i = 2 := by omega
  rcases this with rfl | rfl | rfl <;> simp

@[simp] theorem fieldOpcode_encodeImm6 (op : BitVec 4) (rd rs1 : Reg) (imm : Int) :
    fieldOpcode (encodeImm6 op rd rs1 imm) = op := by
  unfold fieldOpcode encodeImm6
  ext i hi
  have : i = 0 ∨ i = 1 ∨ i = 2 ∨ i = 3 := by omega
  rcases this with rfl | rfl | rfl | rfl <;> simp

@[simp] theorem fieldRd_encodeImm6 (op : BitVec 4) (rd rs1 : Reg) (imm : Int) :
    fieldRd (encodeImm6 op rd rs1 imm) = rd.toField := by
  unfold fieldRd encodeImm6
  ext i hi
  have : i = 0 ∨ i = 1 ∨ i = 2 := by omega
  rcases this with rfl | rfl | rfl <;> simp

@[simp] theorem fieldRs1_encodeImm6 (op : BitVec 4) (rd rs1 : Reg) (imm : Int) :
    fieldRs1 (encodeImm6 op rd rs1 imm) = rs1.toField := by
  unfold fieldRs1 encodeImm6
  ext i hi
  have : i = 0 ∨ i = 1 ∨ i = 2 := by omega
  rcases this with rfl | rfl | rfl <;> simp

@[simp] theorem fieldImm6_encodeImm6 (op : BitVec 4) (rd rs1 : Reg) (imm : Int) :
    fieldImm6 (encodeImm6 op rd rs1 imm) = BitVec.ofInt 6 imm := by
  unfold fieldImm6 encodeImm6
  ext i hi
  have : i = 0 ∨ i = 1 ∨ i = 2 ∨ i = 3 ∨ i = 4 ∨ i = 5 := by omega
  rcases this with rfl | rfl | rfl | rfl | rfl | rfl <;> simp

@[simp] theorem fieldOpcode_encodeImm8 (op : BitVec 4) (rd : Reg) (imm : Int) :
    fieldOpcode (encodeImm8 op rd imm) = op := by
  unfold fieldOpcode encodeImm8
  ext i hi
  have : i = 0 ∨ i = 1 ∨ i = 2 ∨ i = 3 := by omega
  rcases this with rfl | rfl | rfl | rfl <;> simp

@[simp] theorem fieldRd_encodeImm8 (op : BitVec 4) (rd : Reg) (imm : Int) :
    fieldRd (encodeImm8 op rd imm) = rd.toField := by
  unfold fieldRd encodeImm8
  ext i hi
  have : i = 0 ∨ i = 1 ∨ i = 2 := by omega
  rcases this with rfl | rfl | rfl <;> simp

@[simp] theorem fieldImm8_encodeImm8 (op : BitVec 4) (rd : Reg) (imm : Int) :
    fieldImm8 (encodeImm8 op rd imm) = BitVec.ofInt 8 imm := by
  unfold fieldImm8 encodeImm8
  ext i hi
  have : i = 0 ∨ i = 1 ∨ i = 2 ∨ i = 3 ∨ i = 4 ∨ i = 5 ∨ i = 6 ∨ i = 7 := by omega
  rcases this with rfl | rfl | rfl | rfl | rfl | rfl | rfl | rfl <;> simp

/-! ## The table's masks (spec/opcode_table.json) -/

/-- The bits under the mask of a one-mnemonic row are the opcode field's. -/
theorem and_opcodeMask (w : Word) : w &&& (0xF000 : Word) = (fieldOpcode w).zeroExtend 16 <<< 12 := by
  unfold fieldOpcode
  ext i hi
  interval_cases i <;> simp

/-- The bits under the mask of a row that shares its opcode are the opcode and the sub-function field's. -/
theorem and_subfuncMask (w : Word) :
    w &&& (0xF007 : Word) = (fieldOpcode w).zeroExtend 16 <<< 12 ||| (fieldSubfunc w).zeroExtend 16 := by
  unfold fieldOpcode fieldSubfunc
  ext i hi
  interval_cases i <;> simp

end Sys2Proof
end

