-- ==== Sys2Proof/Laws/State.lean ====
section
/-! SUPPORT. One lemma per field per update of State, and one per read that an update leaves alone; all true by
definition, so that no later proof unfolds a record update. -/

namespace Sys2Proof.Machine

variable (s : State)

/-! ## `setReg` -/

@[simp] theorem State.setReg_regs (r : Reg) (v : Word) : (s.setReg r v).regs = s.regs.set r v := rfl
@[simp] theorem State.setReg_pc (r : Reg) (v : Word) : (s.setReg r v).pc = s.pc := rfl
@[simp] theorem State.setReg_mem (r : Reg) (v : Word) : (s.setReg r v).mem = s.mem := rfl
@[simp] theorem State.setReg_bps (r : Reg) (v : Word) : (s.setReg r v).bps = s.bps := rfl
@[simp] theorem State.setReg_status (r : Reg) (v : Word) : (s.setReg r v).status = s.status := rfl
@[simp] theorem State.setReg_cycles (r : Reg) (v : Word) : (s.setReg r v).cycles = s.cycles := rfl
@[simp] theorem State.setReg_inQ (r : Reg) (v : Word) : (s.setReg r v).inQ = s.inQ := rfl
@[simp] theorem State.setReg_out (r : Reg) (v : Word) : (s.setReg r v).out = s.out := rfl
@[simp] theorem State.setReg_snapshot (r : Reg) (v : Word) : (s.setReg r v).snapshot = s.snapshot := rfl
@[simp] theorem State.setReg_memRead (r : Reg) (v : Word) (b : Int) : (s.setReg r v).memRead b = s.memRead b := rfl
@[simp] theorem State.setReg_bpAt (r : Reg) (v : Word) (b : Int) : (s.setReg r v).bpAt b = s.bpAt b := rfl
@[simp] theorem State.setReg_pcNext (r : Reg) (v : Word) : (s.setReg r v).pcNext = s.pcNext := rfl

/-! ## `goto` -/

@[simp] theorem State.goto_regs (n : Int) : (s.goto n).regs = s.regs := rfl
@[simp] theorem State.goto_pc (n : Int) : (s.goto n).pc = addrOf n := rfl
@[simp] theorem State.goto_mem (n : Int) : (s.goto n).mem = s.mem := rfl
@[simp] theorem State.goto_bps (n : Int) : (s.goto n).bps = s.bps := rfl
@[simp] theorem State.goto_status (n : Int) : (s.goto n).status = s.status := rfl
@[simp] theorem State.goto_cycles (n : Int) : (s.goto n).cycles = s.cycles := rfl
@[simp] theorem State.goto_inQ (n : Int) : (s.goto n).inQ = s.inQ := rfl
@[simp] theorem State.goto_out (n : Int) : (s.goto n).out = s.out := rfl
@[simp] theorem State.goto_snapshot (n : Int) : (s.goto n).snapshot = s.snapshot := rfl
@[simp] theorem State.goto_reg (n : Int) (q : Reg) : (s.goto n).reg q = s.reg q := rfl
@[simp] theorem State.goto_memRead (n : Int) (b : Int) : (s.goto n).memRead b = s.memRead b := rfl
@[simp] theorem State.goto_bpAt (n : Int) (b : Int) : (s.goto n).bpAt b = s.bpAt b := rfl

/-! ## `advance` -/

@[simp] theorem State.advance_regs : s.advance.regs = s.regs := rfl
@[simp] theorem State.advance_pc : s.advance.pc = s.pcNext := rfl
@[simp] theorem State.advance_mem : s.advance.mem = s.mem := rfl
@[simp] theorem State.advance_bps : s.advance.bps = s.bps := rfl
@[simp] theorem State.advance_status : s.advance.status = s.status := rfl
@[simp] theorem State.advance_cycles : s.advance.cycles = s.cycles := rfl
@[simp] theorem State.advance_inQ : s.advance.inQ = s.inQ := rfl
@[simp] theorem State.advance_out : s.advance.out = s.out := rfl
@[simp] theorem State.advance_snapshot : s.advance.snapshot = s.snapshot := rfl
@[simp] theorem State.advance_reg (q : Reg) : s.advance.reg q = s.reg q := rfl
@[simp] theorem State.advance_memRead (b : Int) : s.advance.memRead b = s.memRead b := rfl
@[simp] theorem State.advance_bpAt (b : Int) : s.advance.bpAt b = s.bpAt b := rfl

/-! ## `memWrite` -/

@[simp] theorem State.memWrite_regs (a : Int) (v : Word) : (s.memWrite a v).regs = s.regs := rfl
@[simp] theorem State.memWrite_pc (a : Int) (v : Word) : (s.memWrite a v).pc = s.pc := rfl
@[simp] theorem State.memWrite_mem (a : Int) (v : Word) : (s.memWrite a v).mem = Memory.store s.mem (addrOf a) v := rfl
@[simp] theorem State.memWrite_bps (a : Int) (v : Word) : (s.memWrite a v).bps = s.bps := rfl
@[simp] theorem State.memWrite_status (a : Int) (v : Word) : (s.memWrite a v).status = s.status := rfl
@[simp] theorem State.memWrite_cycles (a : Int) (v : Word) : (s.memWrite a v).cycles = s.cycles := rfl
@[simp] theorem State.memWrite_inQ (a : Int) (v : Word) : (s.memWrite a v).inQ = s.inQ := rfl
@[simp] theorem State.memWrite_out (a : Int) (v : Word) : (s.memWrite a v).out = s.out := rfl
@[simp] theorem State.memWrite_snapshot (a : Int) (v : Word) : (s.memWrite a v).snapshot = s.snapshot := rfl
@[simp] theorem State.memWrite_reg (a : Int) (v : Word) (q : Reg) : (s.memWrite a v).reg q = s.reg q := rfl
@[simp] theorem State.memWrite_bpAt (a : Int) (v : Word) (b : Int) : (s.memWrite a v).bpAt b = s.bpAt b := rfl
@[simp] theorem State.memWrite_pcNext (a : Int) (v : Word) : (s.memWrite a v).pcNext = s.pcNext := rfl

/-! ## `setBp` -/

@[simp] theorem State.setBp_regs (a : Int) : (s.setBp a).regs = s.regs := rfl
@[simp] theorem State.setBp_pc (a : Int) : (s.setBp a).pc = s.pc := rfl
@[simp] theorem State.setBp_mem (a : Int) : (s.setBp a).mem = s.mem := rfl
@[simp] theorem State.setBp_bps (a : Int) : (s.setBp a).bps = Breakpoints.insert s.bps (addrOf a) := rfl
@[simp] theorem State.setBp_status (a : Int) : (s.setBp a).status = s.status := rfl
@[simp] theorem State.setBp_cycles (a : Int) : (s.setBp a).cycles = s.cycles := rfl
@[simp] theorem State.setBp_inQ (a : Int) : (s.setBp a).inQ = s.inQ := rfl
@[simp] theorem State.setBp_out (a : Int) : (s.setBp a).out = s.out := rfl
@[simp] theorem State.setBp_snapshot (a : Int) : (s.setBp a).snapshot = s.snapshot := rfl
@[simp] theorem State.setBp_reg (a : Int) (q : Reg) : (s.setBp a).reg q = s.reg q := rfl
@[simp] theorem State.setBp_memRead (a : Int) (b : Int) : (s.setBp a).memRead b = s.memRead b := rfl
@[simp] theorem State.setBp_pcNext (a : Int) : (s.setBp a).pcNext = s.pcNext := rfl

/-! ## `clearBp` -/

@[simp] theorem State.clearBp_regs (a : Int) : (s.clearBp a).regs = s.regs := rfl
@[simp] theorem State.clearBp_pc (a : Int) : (s.clearBp a).pc = s.pc := rfl
@[simp] theorem State.clearBp_mem (a : Int) : (s.clearBp a).mem = s.mem := rfl
@[simp] theorem State.clearBp_bps (a : Int) : (s.clearBp a).bps = Breakpoints.remove s.bps (addrOf a) := rfl
@[simp] theorem State.clearBp_status (a : Int) : (s.clearBp a).status = s.status := rfl
@[simp] theorem State.clearBp_cycles (a : Int) : (s.clearBp a).cycles = s.cycles := rfl
@[simp] theorem State.clearBp_inQ (a : Int) : (s.clearBp a).inQ = s.inQ := rfl
@[simp] theorem State.clearBp_out (a : Int) : (s.clearBp a).out = s.out := rfl
@[simp] theorem State.clearBp_snapshot (a : Int) : (s.clearBp a).snapshot = s.snapshot := rfl
@[simp] theorem State.clearBp_reg (a : Int) (q : Reg) : (s.clearBp a).reg q = s.reg q := rfl
@[simp] theorem State.clearBp_memRead (a : Int) (b : Int) : (s.clearBp a).memRead b = s.memRead b := rfl
@[simp] theorem State.clearBp_pcNext (a : Int) : (s.clearBp a).pcNext = s.pcNext := rfl

/-! ## `popInput` -/

@[simp] theorem State.popInput_regs : s.popInput.regs = s.regs := rfl
@[simp] theorem State.popInput_pc : s.popInput.pc = s.pc := rfl
@[simp] theorem State.popInput_mem : s.popInput.mem = s.mem := rfl
@[simp] theorem State.popInput_bps : s.popInput.bps = s.bps := rfl
@[simp] theorem State.popInput_status : s.popInput.status = s.status := rfl
@[simp] theorem State.popInput_cycles : s.popInput.cycles = s.cycles := rfl
@[simp] theorem State.popInput_inQ : s.popInput.inQ = s.inQ.tail := rfl
@[simp] theorem State.popInput_out : s.popInput.out = s.out := rfl
@[simp] theorem State.popInput_snapshot : s.popInput.snapshot = s.snapshot := rfl
@[simp] theorem State.popInput_reg (q : Reg) : s.popInput.reg q = s.reg q := rfl
@[simp] theorem State.popInput_memRead (b : Int) : s.popInput.memRead b = s.memRead b := rfl
@[simp] theorem State.popInput_bpAt (b : Int) : s.popInput.bpAt b = s.bpAt b := rfl
@[simp] theorem State.popInput_pcNext : s.popInput.pcNext = s.pcNext := rfl

/-! ## `emit` -/

@[simp] theorem State.emit_regs (e : OutEvent) : (s.emit e).regs = s.regs := rfl
@[simp] theorem State.emit_pc (e : OutEvent) : (s.emit e).pc = s.pc := rfl
@[simp] theorem State.emit_mem (e : OutEvent) : (s.emit e).mem = s.mem := rfl
@[simp] theorem State.emit_bps (e : OutEvent) : (s.emit e).bps = s.bps := rfl
@[simp] theorem State.emit_status (e : OutEvent) : (s.emit e).status = s.status := rfl
@[simp] theorem State.emit_cycles (e : OutEvent) : (s.emit e).cycles = s.cycles := rfl
@[simp] theorem State.emit_inQ (e : OutEvent) : (s.emit e).inQ = s.inQ := rfl
@[simp] theorem State.emit_out (e : OutEvent) : (s.emit e).out = s.out ++ [e] := rfl
@[simp] theorem State.emit_snapshot (e : OutEvent) : (s.emit e).snapshot = s.snapshot := rfl
@[simp] theorem State.emit_reg (e : OutEvent) (q : Reg) : (s.emit e).reg q = s.reg q := rfl
@[simp] theorem State.emit_memRead (e : OutEvent) (b : Int) : (s.emit e).memRead b = s.memRead b := rfl
@[simp] theorem State.emit_bpAt (e : OutEvent) (b : Int) : (s.emit e).bpAt b = s.bpAt b := rfl
@[simp] theorem State.emit_pcNext (e : OutEvent) : (s.emit e).pcNext = s.pcNext := rfl

/-! ## `setStatus` -/

@[simp] theorem State.setStatus_regs (st : Status) : (s.setStatus st).regs = s.regs := rfl
@[simp] theorem State.setStatus_pc (st : Status) : (s.setStatus st).pc = s.pc := rfl
@[simp] theorem State.setStatus_mem (st : Status) : (s.setStatus st).mem = s.mem := rfl
@[simp] theorem State.setStatus_bps (st : Status) : (s.setStatus st).bps = s.bps := rfl
@[simp] theorem State.setStatus_status (st : Status) : (s.setStatus st).status = st := rfl
@[simp] theorem State.setStatus_cycles (st : Status) : (s.setStatus st).cycles = s.cycles := rfl
@[simp] theorem State.setStatus_inQ (st : Status) : (s.setStatus st).inQ = s.inQ := rfl
@[simp] theorem State.setStatus_out (st : Status) : (s.setStatus st).out = s.out := rfl
@[simp] theorem State.setStatus_snapshot (st : Status) : (s.setStatus st).snapshot = s.snapshot := rfl
@[simp] theorem State.setStatus_reg (st : Status) (q : Reg) : (s.setStatus st).reg q = s.reg q := rfl
@[simp] theorem State.setStatus_memRead (st : Status) (b : Int) : (s.setStatus st).memRead b = s.memRead b := rfl
@[simp] theorem State.setStatus_bpAt (st : Status) (b : Int) : (s.setStatus st).bpAt b = s.bpAt b := rfl
@[simp] theorem State.setStatus_pcNext (st : Status) : (s.setStatus st).pcNext = s.pcNext := rfl

/-! ## `countCycle` -/

@[simp] theorem State.countCycle_regs : s.countCycle.regs = s.regs := rfl
@[simp] theorem State.countCycle_pc : s.countCycle.pc = s.pc := rfl
@[simp] theorem State.countCycle_mem : s.countCycle.mem = s.mem := rfl
@[simp] theorem State.countCycle_bps : s.countCycle.bps = s.bps := rfl
@[simp] theorem State.countCycle_status : s.countCycle.status = s.status := rfl
@[simp] theorem State.countCycle_cycles : s.countCycle.cycles = s.cycles + 1 := rfl
@[simp] theorem State.countCycle_inQ : s.countCycle.inQ = s.inQ := rfl
@[simp] theorem State.countCycle_out : s.countCycle.out = s.out := rfl
@[simp] theorem State.countCycle_snapshot : s.countCycle.snapshot = s.snapshot := rfl
@[simp] theorem State.countCycle_reg (q : Reg) : s.countCycle.reg q = s.reg q := rfl
@[simp] theorem State.countCycle_memRead (b : Int) : s.countCycle.memRead b = s.memRead b := rfl
@[simp] theorem State.countCycle_bpAt (b : Int) : s.countCycle.bpAt b = s.bpAt b := rfl
@[simp] theorem State.countCycle_pcNext : s.countCycle.pcNext = s.pcNext := rfl

/-! ## `takeSnapshot` -/

@[simp] theorem State.takeSnapshot_regs : s.takeSnapshot.regs = s.regs := rfl
@[simp] theorem State.takeSnapshot_pc : s.takeSnapshot.pc = s.pc := rfl
@[simp] theorem State.takeSnapshot_mem : s.takeSnapshot.mem = s.mem := rfl
@[simp] theorem State.takeSnapshot_bps : s.takeSnapshot.bps = s.bps := rfl
@[simp] theorem State.takeSnapshot_status : s.takeSnapshot.status = s.status := rfl
@[simp] theorem State.takeSnapshot_cycles : s.takeSnapshot.cycles = s.cycles := rfl
@[simp] theorem State.takeSnapshot_inQ : s.takeSnapshot.inQ = s.inQ := rfl
@[simp] theorem State.takeSnapshot_out : s.takeSnapshot.out = s.out := rfl
@[simp] theorem State.takeSnapshot_snapshot : s.takeSnapshot.snapshot = s.regs := rfl
@[simp] theorem State.takeSnapshot_reg (q : Reg) : s.takeSnapshot.reg q = s.reg q := rfl
@[simp] theorem State.takeSnapshot_memRead (b : Int) : s.takeSnapshot.memRead b = s.memRead b := rfl
@[simp] theorem State.takeSnapshot_bpAt (b : Int) : s.takeSnapshot.bpAt b = s.bpAt b := rfl
@[simp] theorem State.takeSnapshot_pcNext : s.takeSnapshot.pcNext = s.pcNext := rfl

end Sys2Proof.Machine
end

