-- ==== Sys2Proof/Laws/Ops.lean ====
section
/-! SUPPORT. What the shared operations of Machine/Ops.lean can do, said once: address reduction, registers, the
memory list, the breakpoint list, the string scan; and that each keeps the canonical form. -/

namespace Sys2Proof.Machine

/-! ## Words and addresses (R8, R51) -/

@[simp] theorem config_memLen : config.memLen = 65536 := rfl

theorem addrOf_eq (n : Int) : addrOf n = (n % 65536).toNat := rfl

theorem addrOf_lt (n : Int) : addrOf n < 65536 := by rw [addrOf_eq]; omega

@[simp] theorem addrOf_natCast (n : Nat) : addrOf (n : Int) = n % 65536 := by rw [addrOf_eq]; omega

theorem addrOf_of_lt {n : Nat} (h : n < 65536) : addrOf (n : Int) = n := by
  rw [addrOf_natCast, Nat.mod_eq_of_lt h]

@[simp] theorem addrOf_addrOf (n : Int) : addrOf (addrOf n : Int) = addrOf n := addrOf_of_lt (addrOf_lt n)

theorem addrOf_eq_addrOf_iff (a b : Int) : addrOf a = addrOf b ↔ a % 65536 = b % 65536 := by
  simp only [addrOf_eq]; omega

theorem addrOf_uview (v : Word) : addrOf (uview v) = v.toNat := by
  have := v.isLt
  simp only [addrOf_eq, uview]; omega

theorem addrOf_addrOf_add (n k : Int) : addrOf ((addrOf n : Int) + k) = addrOf (n + k) := by
  simp only [addrOf_eq]; omega

@[simp] theorem uview_toWord (n : Int) : uview (toWord n) = n % 65536 := by
  simp only [uview, toWord, BitVec.toNat_ofInt]
  omega

/-- Bit k of `W(n)` is bit k of the integer n. -/
theorem getLsbD_toWord (n : Int) {k : Nat} (hk : k < 16) : (toWord n).getLsbD k = decide (n / 2 ^ k % 2 = 1) := by
  have h := uview_toWord n
  simp only [uview] at h
  have h2 : (toWord n).toNat = (n % 65536).toNat := by omega
  rw [BitVec.getLsbD, h2, Nat.testBit_eq_decide_div_mod_eq]
  congr 1
  have h3 : (((n % 65536).toNat / 2 ^ k % 2 : Nat) : Int) = n / 2 ^ k % 2 := by
    push_cast
    rw [Int.toNat_of_nonneg (by omega)]
    interval_cases k <;> omega
  exact propext (by omega)

theorem uview_nonneg (v : Word) : 0 ≤ uview v := by simp only [uview]; omega

theorem uview_lt (v : Word) : uview v < 65536 := by
  have := v.isLt
  simp only [uview]; omega

theorem sview_eq_toInt (v : Word) : sview v = v.toInt := by
  have h := v.isLt
  have hb : v.getLsbD 15 = decide (2 ^ 15 ≤ v.toNat) := by
    have := BitVec.msb_eq_decide v
    rwa [BitVec.msb_eq_getLsbD_last] at this
  simp only [sview, uview, BitVec.toInt_eq_toNat_cond, hb]
  split <;> split <;> simp_all <;> omega

@[simp] theorem toWord_uview (v : Word) : toWord (uview v) = v := by
  simp [toWord, uview]

@[simp] theorem toWord_sview (v : Word) : toWord (sview v) = v := by
  rw [sview_eq_toInt, toWord, BitVec.ofInt_toInt]

theorem sview_eq_zero_iff (v : Word) : sview v = 0 ↔ v = 0 := by
  rw [sview_eq_toInt]
  constructor
  · intro h
    rw [← BitVec.ofInt_toInt (x := v), h]; rfl
  · rintro rfl; rfl

/-! ## Registers (R22) -/

@[simp] theorem Regs.get_r0 (g : Regs) : g.get .r0 = 0 := rfl

theorem Regs.get_set (g : Regs) (r q : Reg) (v : Word) :
    (g.set r v).get q = if q = r ∧ r ≠ .r0 then v else g.get q := by
  cases r <;> cases q <;> rfl

@[simp] theorem State.reg_r0 (s : State) : s.reg .r0 = 0 := rfl

theorem State.reg_setReg (s : State) (r q : Reg) (v : Word) :
    (s.setReg r v).reg q = if q = r ∧ r ≠ .r0 then v else s.reg q := Regs.get_set ..

/-- `pcnext` is the next address, wrapping at the end of memory (R26). -/
theorem State.pcNext_eq (s : State) : s.pcNext = (s.pc + 1) % 65536 := by
  simp only [State.pcNext, addrOf_eq]; omega

theorem State.pcNext_lt (s : State) : s.pcNext < 65536 := by rw [State.pcNext_eq]; omega

@[simp] theorem State.setReg_r0 (s : State) (v : Word) : s.setReg .r0 v = s := rfl

/-! ## The memory list (R52, R53) -/

theorem Memory.written_store (m : Memory) (a b : Nat) (v : Word) :
    Memory.written (Memory.store m a v) b = if b = a then some v else Memory.written m b := by
  induction m with
  | nil => simp [Memory.store, Memory.written, eq_comm]
  | cons c rest ih =>
    obtain ⟨k, w⟩ := c
    unfold Memory.store
    split
    · by_cases h : b = a
      · simp [Memory.written, h]
      · rw [if_neg h, Memory.written, if_neg (Ne.symm h)]
    · split
      · next h =>
        subst h
        by_cases h : b = a
        · simp [Memory.written, h]
        · simp [Memory.written, h, Ne.symm h]
      · next h =>
        simp only [Memory.written]
        by_cases hk : k = b
        · subst hk
          rw [if_pos rfl, if_pos rfl, if_neg (fun e => h e.symm)]
        · rw [if_neg hk, if_neg hk, ih]

theorem Memory.mem_store {m : Memory} {a : Nat} {v : Word} {c : Nat × Word} (h : c ∈ Memory.store m a v) :
    c = (a, v) ∨ c ∈ m := by
  induction m with
  | nil => simpa [Memory.store] using h
  | cons d rest ih =>
    obtain ⟨k, w⟩ := d
    unfold Memory.store at h
    split at h
    · simpa using h
    · split at h
      · rcases List.mem_cons.1 h with h | h
        · exact .inl h
        · exact .inr (List.mem_cons_of_mem _ h)
      · rcases List.mem_cons.1 h with h | h
        · exact .inr (h ▸ List.mem_cons_self)
        · exact (ih h).imp_right (List.mem_cons_of_mem _)

/-- Storing to a cell keeps the canonical form. -/
theorem Memory.store_wf {m : Memory} (h : Memory.wf m) {a : Nat} (ha : a < config.memLen) (v : Word) :
    Memory.wf (Memory.store m a v) := by
  refine ⟨?_, ?_⟩
  · have hs := h.1
    clear h
    induction m with
    | nil => simp [Memory.store]
    | cons d rest ih =>
      obtain ⟨k, w⟩ := d
      simp only [List.map_cons, List.pairwise_cons, List.mem_map] at hs
      unfold Memory.store
      split
      · next hlt =>
        simp only [List.map_cons, List.pairwise_cons, List.mem_cons, List.mem_map]
        refine ⟨?_, ?_, hs.2⟩
        · rintro x (rfl | hx)
          · exact hlt
          · exact Nat.lt_trans hlt (hs.1 x hx)
        · exact hs.1
      · split
        · next heq =>
          subst heq
          simp only [List.map_cons, List.pairwise_cons, List.mem_map]
          exact hs
        · next hlt hne =>
          simp only [List.map_cons, List.pairwise_cons, List.mem_map]
          refine ⟨?_, ih hs.2⟩
          rintro x ⟨c, hc, rfl⟩
          rcases Memory.mem_store hc with rfl | hc
          · exact Nat.lt_of_le_of_ne (Nat.le_of_not_lt hlt) (Ne.symm hne)
          · exact hs.1 _ ⟨c, hc, rfl⟩
  · intro c hc
    rcases Memory.mem_store hc with rfl | hc
    · exact ha
    · exact h.2 c hc

/-- A read sees the write to its own cell and no other (R52, R53). -/
theorem State.memRead_memWrite (s : State) (a b : Int) (v : Word) :
    (s.memWrite a v).memRead b = if addrOf b = addrOf a then v else s.memRead b := by
  simp only [State.memRead, State.memWrite, Memory.written_store]
  split <;> rfl

theorem State.memRead_congr (s : State) {a b : Int} (h : a % 65536 = b % 65536) : s.memRead a = s.memRead b := by
  unfold State.memRead
  rw [(addrOf_eq_addrOf_iff a b).2 h]

theorem Memory.wf_nil : Memory.wf [] := ⟨List.Pairwise.nil, by simp⟩

/-! ## The breakpoint list (R147) -/

theorem Breakpoints.mem_insert (l : Breakpoints) (a b : Nat) :
    b ∈ Breakpoints.insert l a ↔ b = a ∨ b ∈ l := by
  induction l with
  | nil => simp [Breakpoints.insert]
  | cons c rest ih =>
    unfold Breakpoints.insert
    split
    · simp
    · split
      · next h => subst h; simp
      · simp only [List.mem_cons, ih]; tauto

theorem Breakpoints.insert_wf {l : Breakpoints} (h : Breakpoints.wf l) {a : Nat} (ha : a < config.memLen) :
    Breakpoints.wf (Breakpoints.insert l a) := by
  refine ⟨?_, ?_⟩
  · have hs := h.1
    clear h
    induction l with
    | nil => simp [Breakpoints.insert]
    | cons c rest ih =>
      simp only [List.pairwise_cons] at hs
      unfold Breakpoints.insert
      split
      · next hlt =>
        simp only [List.pairwise_cons, List.mem_cons]
        refine ⟨?_, hs⟩
        rintro x (rfl | hx)
        · exact hlt
        · exact Nat.lt_trans hlt (hs.1 x hx)
      · split
        · exact List.pairwise_cons.2 hs
        · next hlt hne =>
          refine List.pairwise_cons.2 ⟨?_, ih hs.2⟩
          intro x hx
          rcases (Breakpoints.mem_insert _ _ _).1 hx with rfl | hx
          · exact Nat.lt_of_le_of_ne (Nat.le_of_not_lt hlt) (Ne.symm hne)
          · exact hs.1 x hx
  · intro b hb
    rcases (Breakpoints.mem_insert _ _ _).1 hb with rfl | hb
    · exact ha
    · exact h.2 b hb

theorem Breakpoints.mem_remove (l : Breakpoints) (a b : Nat) :
    b ∈ Breakpoints.remove l a ↔ b ∈ l ∧ b ≠ a := by
  simp [Breakpoints.remove]

theorem Breakpoints.remove_wf {l : Breakpoints} (h : Breakpoints.wf l) (a : Nat) :
    Breakpoints.wf (Breakpoints.remove l a) :=
  ⟨h.1.filter _, fun b hb => h.2 b ((Breakpoints.mem_remove _ _ _).1 hb).1⟩

theorem Breakpoints.wf_nil : Breakpoints.wf [] := ⟨List.Pairwise.nil, by simp⟩

/-! ## The string scan (R188) -/

/-- A scan that answers read `ws.length` non-zero cells one after the other, and then a zero cell. -/
theorem State.scanString_some {s : State} {fuel a : Nat} {ws : List Word} (h : s.scanString fuel a = some ws) :
    ws.length < fuel ∧ s.memRead (a + ws.length) = 0 ∧
      ∀ (i : Nat) (hi : i < ws.length), ws[i] = s.memRead (a + i) ∧ ws[i] ≠ 0 := by
  have shift (n k : Nat) : s.memRead ((addrOf ((n : Int) + 1) : Int) + k) = s.memRead (n + ((k + 1 : Nat) : Int)) := by
    unfold State.memRead
    rw [addrOf_addrOf_add]
    have : (n : Int) + 1 + k = n + ((k + 1 : Nat) : Int) := by push_cast; ring
    rw [this]
  induction fuel generalizing a ws with
  | zero => simp [State.scanString] at h
  | succ fuel ih =>
    unfold State.scanString at h
    split at h
    · next h0 =>
      obtain rfl : [] = ws := by simpa using h
      exact ⟨Nat.succ_pos _, by simpa using h0, fun i hi => absurd hi (Nat.not_lt_zero i)⟩
    · next h0 =>
      obtain ⟨rest, hrest, rfl⟩ := Option.map_eq_some_iff.1 h
      obtain ⟨hlen, hzero, hcells⟩ := ih hrest
      refine ⟨by simpa using hlen, ?_, ?_⟩
      · rw [List.length_cons, ← shift]; exact hzero
      · rintro (_ | i) hi
        · exact ⟨by simp, by simpa using h0⟩
        · have := hcells i (by simpa using hi)
          rw [shift] at this
          simpa using this

/-- A scan that gives up has seen `fuel` non-zero cells. -/
theorem State.scanString_none {s : State} {fuel a : Nat} (h : s.scanString fuel a = none) (i : Nat)
    (hi : i < fuel) : s.memRead (a + i) ≠ 0 := by
  induction fuel generalizing a i with
  | zero => omega
  | succ fuel ih =>
    unfold State.scanString at h
    split at h
    · simp at h
    · next h0 =>
      rcases i with _ | i
      · simpa using h0
      · have := ih (Option.map_eq_none_iff.1 h) i (by omega)
        unfold State.memRead at this ⊢
        rw [addrOf_addrOf_add] at this
        have e : (a : Int) + 1 + i = a + ((i + 1 : Nat) : Int) := by push_cast; ring
        rwa [e] at this

/-- The words of a scanned string are not zero (R34). -/
theorem State.scanString_nonzero {s : State} {fuel a : Nat} {ws : List Word} (h : s.scanString fuel a = some ws) :
    ∀ w ∈ ws, w ≠ 0 := by
  intro w hw
  obtain ⟨i, hi, rfl⟩ := List.getElem_of_mem hw
  exact ((State.scanString_some h).2.2 i hi).2

end Sys2Proof.Machine
end

