-- ==== Sys2Proof/Laws/Assembler.lean ====
section
/-! SUPPORT. What the assembler's relocation can do, said once (R119). -/

namespace Sys2Proof.Machine

/-- An offset that is found fits its field and leads from the next address to the target, around the end of memory. -/
theorem branchOffset_some {address target offset : Int} (h : branchOffset address target = some offset) :
    fitsSigned 8 offset = true ∧ (address + 1 + offset) % 65536 = target % 65536 := by
  have hw : (address + 1 + wrappedOffset address target) % 65536 = target % 65536 := by
    unfold wrappedOffset
    rw [config_memLen]
    split <;> omega
  unfold branchOffset at h
  split at h
  · next hf =>
    cases h
    exact ⟨hf, hw⟩
  · cases h

/-- Patching the low byte of an Imm8 word is encoding it with the new immediate. -/
theorem patchLow8_encodeImm8 (op : BitVec 4) (rd : Reg) (imm v : Int) :
    patchLow8 (encodeImm8 op rd imm) v = encodeImm8 op rd v := by
  have mask (a b c : Word) (hc : c &&& (0xFF00 : Word) = 0) (hab : (a ||| b) &&& (0xFF00 : Word) = a ||| b) :
      (a ||| b ||| c) &&& (0xFF00 : Word) = a ||| b := by
    simp only [BitVec.and_or_distrib_right, hc] at hab ⊢
    simpa using hab
  have low : ∀ b : BitVec 8, b.zeroExtend 16 &&& (0xFF00 : Word) = 0 := by decide
  have high : ∀ (o : BitVec 4) (r : BitVec 3), (o.zeroExtend 16 <<< 12 ||| r.zeroExtend 16 <<< 9) &&& (0xFF00 : Word) =
      (o.zeroExtend 16 <<< 12 ||| r.zeroExtend 16 <<< 9) := by decide
  unfold patchLow8 encodeImm8
  rw [mask _ _ _ (low _) (high _ _)]

end Sys2Proof.Machine
end

