-- ==== Sys2Proof/Laws/Exec.lean ====
section
/-! SUPPORT. What the shared endings of the instructions can do, said once each: if one answers a next state, that
state is the one named; and when it stops. -/

namespace Sys2Proof.Machine

theorem writeBack_next {s t : State} {rd : Reg} {v : Word} (h : writeBack s rd v = .next t) :
    t = (s.setReg rd v).advance := by
  simp only [writeBack, Host.Outcome.next.injEq] at h
  exact h.symm

theorem emitAndAdvance_next {s t : State} {e : OutEvent} (h : emitAndAdvance s e = .next t) :
    t = (s.emit e).advance := by
  simp only [emitAndAdvance, Host.Outcome.next.injEq] at h
  exact h.symm

theorem haltHere_next {s t : State} (h : haltHere s = .next t) : t = s.setStatus .halted := by
  simp only [haltHere, Host.Outcome.next.injEq] at h
  exact h.symm

theorem branchIf_next {b : Bool} {imm : Int} {s t : State} (h : branchIf b imm s = .next t) :
    (b = true ∧ t = s.goto (s.branchTarget imm)) ∨ (b = false ∧ t = s.advance) := by
  cases b <;> simp_all [branchIf]

/-- `div` and `mod` either raise what the unit raised, or write its result. -/
theorem writeBackOrRaise_cases (s : State) (rd : Reg) (r : Except ExecError Word) :
    (∃ v, r = .ok v ∧ writeBackOrRaise s rd r = .next ((s.setReg rd v).advance)) ∨
    (∃ e, r = .error e ∧ writeBackOrRaise s rd r = .fault (.error e)) := by
  cases r with
  | ok v => exact .inl ⟨v, rfl, rfl⟩
  | error e => exact .inr ⟨e, rfl, rfl⟩

theorem aluDiv_error {a b : Word} {e : ExecError} (h : aluDiv a b = .error e) : e = .divideByZero ∧ b = 0 := by
  unfold aluDiv at h
  split at h
  · next hb =>
    simp only [config, Except.error.injEq] at h
    exact ⟨h.symm, (sview_eq_zero_iff b).1 hb⟩
  · simp at h

theorem aluMod_error {a b : Word} {e : ExecError} (h : aluMod a b = .error e) : e = .divideByZero ∧ b = 0 := by
  unfold aluMod at h
  split at h
  · next hb =>
    simp only [config, Except.error.injEq] at h
    exact ⟨h.symm, (sview_eq_zero_iff b).1 hb⟩
  · simp at h

/-- The quotient toward zero is core Lean's `Int.tdiv`, so its lemmas apply (R167). -/
theorem quotient_truncate (a b : Int) : quotient .truncate a b = a.tdiv b := by
  have abs (x y : Int) : ((x.natAbs / y.natAbs : Nat) : Int) = (x.natAbs : Int).tdiv y.natAbs := rfl
  rw [quotient, abs]
  rcases Int.lt_trichotomy a 0 with ha | rfl | ha
  · rcases Int.lt_trichotomy b 0 with hb | rfl | hb
    · rw [Int.ofNat_natAbs_of_nonpos ha.le, Int.ofNat_natAbs_of_nonpos hb.le]
      simp [Int.sign_eq_neg_one_of_neg ha, Int.sign_eq_neg_one_of_neg hb]
    · simp
    · rw [Int.ofNat_natAbs_of_nonpos ha.le, Int.natAbs_of_nonneg hb.le]
      simp [Int.sign_eq_neg_one_of_neg ha, Int.sign_eq_one_of_pos hb]
  · simp
  · rcases Int.lt_trichotomy b 0 with hb | rfl | hb
    · rw [Int.natAbs_of_nonneg ha.le, Int.ofNat_natAbs_of_nonpos hb.le]
      simp [Int.sign_eq_one_of_pos ha, Int.sign_eq_neg_one_of_neg hb]
    · simp
    · rw [Int.natAbs_of_nonneg ha.le, Int.natAbs_of_nonneg hb.le]
      simp [Int.sign_eq_one_of_pos ha, Int.sign_eq_one_of_pos hb]

/-- The string an `outs` writes, or that it never ends (R188). -/
theorem execOuts_cases (rd : Reg) (s : State) :
    (rd = .r0 ∧ execOuts rd s = .next (s.setStatus .halted)) ∨
    (rd ≠ .r0 ∧ ∃ ws, s.readString (uview (s.reg rd)) = some ws ∧
      execOuts rd s = .next ((s.emit (.str ws)).advance)) ∨
    (rd ≠ .r0 ∧ s.readString (uview (s.reg rd)) = none ∧ execOuts rd s = .fault .outsHang) := by
  unfold execOuts
  by_cases h : rd = .r0
  · exact .inl ⟨h, by rw [if_pos h]; rfl⟩
  · rw [if_neg h]
    cases hr : s.readString (uview (s.reg rd)) with
    | some ws => exact .inr (.inl ⟨h, ws, rfl, rfl⟩)
    | none => exact .inr (.inr ⟨h, rfl, rfl⟩)

/-- `in` takes the head of the queue or raises (R185). -/
theorem execIn_cases (rd : Reg) (s : State) :
    (∃ v rest, s.inQ = v :: rest ∧ execIn rd s = .next ((s.popInput.setReg rd v).advance)) ∨
    (s.inQ = [] ∧ execIn rd s = .fault (.error .inputExhausted)) := by
  unfold execIn
  cases h : s.inQ with
  | nil => exact .inr ⟨rfl, rfl⟩
  | cons v rest => exact .inl ⟨v, rest, rfl, rfl⟩

end Sys2Proof.Machine
end

