-- ==== Sys2Proof/Laws/Loop.lean ====
section
/-! SUPPORT. What one iteration of the loop, one step and one host call can do, said once each. -/

namespace Sys2Proof.Machine

/-- The state in which steps 3 and 4 find an instruction: status Running, snapshot taken (R134). -/
abbrev State.begun (s : State) : State := (s.setStatus .running).takeSnapshot

theorem afterExecute_cases (t : State) :
    (t.status = .halted ∧ afterExecute t = .halted t.countCycle) ∨
    (t.status ≠ .halted ∧ afterExecute t = .continues t.countCycle) := by
  unfold afterExecute
  by_cases h : t.status = .halted
  · exact .inl ⟨h, if_pos h⟩
  · exact .inr ⟨h, if_neg h⟩

/-- Everything an iteration can do (R132, R259). -/
theorem iterate_cases (s : State) :
    (s.atBreakpoint = true ∧ iterate s = .breakpoint (s.setStatus .paused)) ∨
    (s.atBreakpoint = false ∧ (∃ e, recognise s.fetchWord = .error e) ∧
      iterate s = .faulted .invalidOpcode (s.setStatus .running)) ∨
    (s.atBreakpoint = false ∧ ∃ i, recognise s.fetchWord = .ok i ∧ iterate s = dispatch i s.begun) := by
  unfold iterate
  by_cases h : s.atBreakpoint = true
  · exact .inl ⟨h, if_pos h⟩
  · rw [if_neg h]
    rw [Bool.not_eq_true] at h
    cases hw : recognise s.fetchWord with
    | error e => exact .inr (.inl ⟨h, ⟨e, rfl⟩, rfl⟩)
    | ok i => exact .inr (.inr ⟨h, i, rfl, rfl⟩)

/-- Everything the dispatch of an instruction can do (R135 to R137, R141). -/
theorem dispatch_cases (i : Instr) (s : State) :
    (∃ t, exec i s = .next t ∧ i = .halt ∧ dispatch i s = .halted t) ∨
    (∃ t, exec i s = .next t ∧ i ≠ .halt ∧ dispatch i s = afterExecute t) ∨
    (∃ e, exec i s = .fault (.error e) ∧ dispatch i s = .faulted e s) ∨
    (exec i s = .fault .outsHang ∧ dispatch i s = .hangs) ∨
    (∃ r, exec i s = .refused r ∧ dispatch i s = .refused r) := by
  unfold dispatch
  cases h : exec i s with
  | next t =>
    by_cases hi : i = .halt
    · exact .inl ⟨t, rfl, hi, if_pos hi⟩
    · exact .inr (.inl ⟨t, rfl, hi, if_neg hi⟩)
  | fault f =>
    cases f with
    | error e => exact .inr (.inr (.inl ⟨e, rfl, rfl⟩))
    | outsHang => exact .inr (.inr (.inr (.inl ⟨rfl, rfl⟩)))
  | refused r => exact .inr (.inr (.inr (.inr ⟨r, rfl, rfl⟩)))

/-- If a step answers a next state, it stopped at a breakpoint, met the sentinel, or dispatched an instruction. -/
theorem step_next {s t : State} (h : step s = .next t) :
    (s.atBreakpoint = true ∧ t = s.setStatus .paused) ∨
    (s.atBreakpoint = false ∧ ∃ i u, recognise s.fetchWord = .ok i ∧ exec i s.begun = .next u ∧
      ((i = .halt ∧ t = u) ∨ (i ≠ .halt ∧ t = u.countCycle))) := by
  unfold step at h
  rcases iterate_cases s with ⟨hb, hi⟩ | ⟨_, _, hi⟩ | ⟨hb, i, hw, hi⟩
  · rw [hi] at h
    exact .inl ⟨hb, by simpa using h.symm⟩
  · rw [hi] at h; simp at h
  · refine .inr ⟨hb, i, ?_⟩
    rw [hi] at h
    rcases dispatch_cases i s.begun with ⟨u, hu, hh, hd⟩ | ⟨u, hu, hh, hd⟩ | ⟨e, _, hd⟩ | ⟨_, hd⟩ | ⟨r, _, hd⟩ <;>
      rw [hd] at h
    · exact ⟨u, hw, hu, .inl ⟨hh, by simpa using h.symm⟩⟩
    · rcases afterExecute_cases u with ⟨_, ha⟩ | ⟨_, ha⟩ <;> rw [ha] at h <;>
        exact ⟨u, hw, hu, .inr ⟨hh, by simpa using h.symm⟩⟩
    all_goals simp at h

/-- A budget unit buys one iteration (R132). -/
theorem runLoop_succ (n : Nat) (s : State) :
    runLoop (n + 1) s =
      match iterate s with
      | .continues t => runLoop n t
      | .halted t => .returned .halted t
      | .breakpoint t => .returned .breakpoint t
      | .faulted e t => .returned (.fault e) t
      | .hangs => .hangs
      | .refused r => .refused r := rfl

@[simp] theorem runLoop_zero (s : State) : runLoop 0 s = .returned .cyclesExceeded (s.setStatus .paused) := rfl

@[simp] theorem runCall_natCast (n : Nat) (s : State) : runCall (n : Int) s = runLoop n s := rfl

end Sys2Proof.Machine
end

