-- ==== Sys2Proof/Laws/PerInstr.lean ====
section
/-! SUPPORT. Laws stated once per instruction, about the instruction as syntax: the fields it uses are legal in its
format (spec/30_encoding.md R88, R92), and its word is on its row of the opcode table. -/

namespace Sys2Proof.Laws

/-! ## Every field an instruction uses is legal in its format, so no accessor fails (R92, R254) -/

/-- The typed accessor answers for every field the instruction uses, on every word. -/
def FieldsLegal.Statement (i : Instr) : Prop :=
  ∀ f ∈ i.fieldsUsed, ∀ w : Word, accessField i.format f w = .ok (f.ofWord w)

/-- The accessor answers where the format has the field. -/
theorem accessField_ok {fmt : Format} {f : Field} (h : fmt.hasField f = true) (w : Word) :
    accessField fmt f w = .ok (f.ofWord w) := if_pos h

namespace FieldsLegal

theorem add (rd rs1 rs2 : Reg) : Statement (.add rd rs1 rs2) := fun f hf w =>
  accessField_ok (by revert f; simp [Instr.fieldsUsed, Instr.format, Format.hasField]) w

theorem sub (rd rs1 rs2 : Reg) : Statement (.sub rd rs1 rs2) := fun f hf w =>
  accessField_ok (by revert f; simp [Instr.fieldsUsed, Instr.format, Format.hasField]) w

theorem and (rd rs1 rs2 : Reg) : Statement (.and rd rs1 rs2) := fun f hf w =>
  accessField_ok (by revert f; simp [Instr.fieldsUsed, Instr.format, Format.hasField]) w

theorem or (rd rs1 rs2 : Reg) : Statement (.or rd rs1 rs2) := fun f hf w =>
  accessField_ok (by revert f; simp [Instr.fieldsUsed, Instr.format, Format.hasField]) w

theorem not (rd rs1 : Reg) : Statement (.not rd rs1) := fun f hf w =>
  accessField_ok (by revert f; simp [Instr.fieldsUsed, Instr.format, Format.hasField]) w

theorem mul (rd rs1 rs2 : Reg) : Statement (.mul rd rs1 rs2) := fun f hf w =>
  accessField_ok (by revert f; simp [Instr.fieldsUsed, Instr.format, Format.hasField]) w

theorem div (rd rs1 rs2 : Reg) : Statement (.div rd rs1 rs2) := fun f hf w =>
  accessField_ok (by revert f; simp [Instr.fieldsUsed, Instr.format, Format.hasField]) w

theorem mod (rd rs1 rs2 : Reg) : Statement (.mod rd rs1 rs2) := fun f hf w =>
  accessField_ok (by revert f; simp [Instr.fieldsUsed, Instr.format, Format.hasField]) w

theorem jalr (rd rs1 : Reg) : Statement (.jalr rd rs1) := fun f hf w =>
  accessField_ok (by revert f; simp [Instr.fieldsUsed, Instr.format, Format.hasField]) w

theorem inp (rd : Reg) : Statement (.inp rd) := fun f hf w =>
  accessField_ok (by revert f; simp [Instr.fieldsUsed, Instr.format, Format.hasField]) w

theorem addi (rd rs1 : Reg) (i : Int) : Statement (.addi rd rs1 i) := fun f hf w =>
  accessField_ok (by revert f; simp [Instr.fieldsUsed, Instr.format, Format.hasField]) w

theorem shf (rd rs1 : Reg) (i : Int) : Statement (.shf rd rs1 i) := fun f hf w =>
  accessField_ok (by revert f; simp [Instr.fieldsUsed, Instr.format, Format.hasField]) w

theorem lw (rd rs1 : Reg) (i : Int) : Statement (.lw rd rs1 i) := fun f hf w =>
  accessField_ok (by revert f; simp [Instr.fieldsUsed, Instr.format, Format.hasField]) w

theorem sw (rd rs1 : Reg) (i : Int) : Statement (.sw rd rs1 i) := fun f hf w =>
  accessField_ok (by revert f; simp [Instr.fieldsUsed, Instr.format, Format.hasField]) w

theorem lli (rd : Reg) (i : Int) : Statement (.lli rd i) := fun f hf w =>
  accessField_ok (by revert f; simp [Instr.fieldsUsed, Instr.format, Format.hasField]) w

theorem lui (rd : Reg) (i : Int) : Statement (.lui rd i) := fun f hf w =>
  accessField_ok (by revert f; simp [Instr.fieldsUsed, Instr.format, Format.hasField]) w

theorem beq (rd : Reg) (i : Int) : Statement (.beq rd i) := fun f hf w =>
  accessField_ok (by revert f; simp [Instr.fieldsUsed, Instr.format, Format.hasField]) w

theorem bne (rd : Reg) (i : Int) : Statement (.bne rd i) := fun f hf w =>
  accessField_ok (by revert f; simp [Instr.fieldsUsed, Instr.format, Format.hasField]) w

theorem bgt (rd : Reg) (i : Int) : Statement (.bgt rd i) := fun f hf w =>
  accessField_ok (by revert f; simp [Instr.fieldsUsed, Instr.format, Format.hasField]) w

theorem bge (rd : Reg) (i : Int) : Statement (.bge rd i) := fun f hf w =>
  accessField_ok (by revert f; simp [Instr.fieldsUsed, Instr.format, Format.hasField]) w

theorem blt (rd : Reg) (i : Int) : Statement (.blt rd i) := fun f hf w =>
  accessField_ok (by revert f; simp [Instr.fieldsUsed, Instr.format, Format.hasField]) w

theorem ble (rd : Reg) (i : Int) : Statement (.ble rd i) := fun f hf w =>
  accessField_ok (by revert f; simp [Instr.fieldsUsed, Instr.format, Format.hasField]) w

theorem out (rd : Reg) : Statement (.out rd) := fun f hf w =>
  accessField_ok (by revert f; simp [Instr.fieldsUsed, Instr.format, Format.hasField]) w

theorem outs (rd : Reg) : Statement (.outs rd) := fun f hf w =>
  accessField_ok (by revert f; simp [Instr.fieldsUsed, Instr.format, Format.hasField]) w

theorem outn (rd : Reg) : Statement (.outn rd) := fun f hf w =>
  accessField_ok (by revert f; simp [Instr.fieldsUsed, Instr.format, Format.hasField]) w

theorem halt : Statement .halt := fun f hf w =>
  accessField_ok (by revert f; simp [Instr.fieldsUsed, Instr.format, Format.hasField]) w

end FieldsLegal

/-! ## The encoder's word is on the instruction's row of the table (R95 to R97) -/

/-- The row of the table with the instruction's mnemonic matches the encoder's word; the halt word is its own row. -/
def OnTableRow.Statement (i : Instr) : Prop :=
  ∃ row ∈ haltRow :: opcodeTable, row.mnemonic = i.mnemonic ∧ encode i &&& row.mask = row.bits

/-- A row with the mask of a shared opcode. -/
theorem encodeR_row (m : String) (op : BitVec 4) (rd rs1 rs2 : Reg) (f : BitVec 3) (bits : Word)
    (hb : op.zeroExtend 16 <<< 12 ||| f.zeroExtend 16 = bits) (hr : ⟨m, bits, 0xF007⟩ ∈ opcodeTable) :
    ∃ row ∈ haltRow :: opcodeTable, row.mnemonic = m ∧ encodeR op rd rs1 rs2 f &&& row.mask = row.bits :=
  ⟨_, List.mem_cons_of_mem _ hr, rfl, by
    show encodeR op rd rs1 rs2 f &&& (0xF007 : Word) = bits
    rw [and_subfuncMask, fieldOpcode_encodeR, fieldSubfunc_encodeR, hb]⟩

/-- A row with the mask of an unshared opcode. -/
theorem opcode_row (m : String) (w bits : Word) (hb : (fieldOpcode w).zeroExtend 16 <<< 12 = bits)
    (hr : ⟨m, bits, 0xF000⟩ ∈ opcodeTable) :
    ∃ row ∈ haltRow :: opcodeTable, row.mnemonic = m ∧ w &&& row.mask = row.bits :=
  ⟨_, List.mem_cons_of_mem _ hr, rfl, by
    show w &&& (0xF000 : Word) = bits
    rw [and_opcodeMask, hb]⟩

namespace OnTableRow

theorem add (rd rs1 rs2 : Reg) : Statement (.add rd rs1 rs2) :=
  encodeR_row "add" _ _ _ _ _ 0x0000 (by decide) (by decide)

theorem sub (rd rs1 rs2 : Reg) : Statement (.sub rd rs1 rs2) :=
  encodeR_row "sub" _ _ _ _ _ 0x0001 (by decide) (by decide)

theorem and (rd rs1 rs2 : Reg) : Statement (.and rd rs1 rs2) :=
  encodeR_row "and" _ _ _ _ _ 0x0002 (by decide) (by decide)

theorem or (rd rs1 rs2 : Reg) : Statement (.or rd rs1 rs2) :=
  encodeR_row "or" _ _ _ _ _ 0x0003 (by decide) (by decide)

theorem not (rd rs1 : Reg) : Statement (.not rd rs1) :=
  encodeR_row "not" _ _ _ _ _ 0x0004 (by decide) (by decide)

theorem mul (rd rs1 rs2 : Reg) : Statement (.mul rd rs1 rs2) :=
  encodeR_row "mul" _ _ _ _ _ 0x0005 (by decide) (by decide)

theorem div (rd rs1 rs2 : Reg) : Statement (.div rd rs1 rs2) :=
  encodeR_row "div" _ _ _ _ _ 0x0006 (by decide) (by decide)

theorem mod (rd rs1 rs2 : Reg) : Statement (.mod rd rs1 rs2) :=
  encodeR_row "mod" _ _ _ _ _ 0x0007 (by decide) (by decide)

theorem jalr (rd rs1 : Reg) : Statement (.jalr rd rs1) :=
  opcode_row "jalr" _ 0x1000 (by unfold encode encodeWith; rw [fieldOpcode_encodeR]; decide) (by decide)

theorem inp (rd : Reg) : Statement (.inp rd) :=
  opcode_row "in" _ 0x2000 (by unfold encode encodeWith; rw [fieldOpcode_encodeR]; decide) (by decide)

theorem addi (rd rs1 : Reg) (i : Int) : Statement (.addi rd rs1 i) :=
  opcode_row "addi" _ 0x3000 (by unfold encode encodeWith; rw [fieldOpcode_encodeImm6]; decide) (by decide)

theorem shf (rd rs1 : Reg) (i : Int) : Statement (.shf rd rs1 i) :=
  opcode_row "shf" _ 0x4000 (by unfold encode encodeWith; rw [fieldOpcode_encodeImm6]; decide) (by decide)

theorem lw (rd rs1 : Reg) (i : Int) : Statement (.lw rd rs1 i) :=
  opcode_row "lw" _ 0x5000 (by unfold encode encodeWith; rw [fieldOpcode_encodeImm6]; decide) (by decide)

theorem sw (rd rs1 : Reg) (i : Int) : Statement (.sw rd rs1 i) :=
  opcode_row "sw" _ 0x6000 (by unfold encode encodeWith; rw [fieldOpcode_encodeImm6]; decide) (by decide)

theorem lli (rd : Reg) (i : Int) : Statement (.lli rd i) :=
  opcode_row "lli" _ 0x7000 (by unfold encode encodeWith; rw [fieldOpcode_encodeImm8]; decide) (by decide)

theorem lui (rd : Reg) (i : Int) : Statement (.lui rd i) :=
  opcode_row "lui" _ 0x8000 (by unfold encode encodeWith; rw [fieldOpcode_encodeImm8]; decide) (by decide)

theorem beq (rd : Reg) (i : Int) : Statement (.beq rd i) :=
  opcode_row "beq" _ 0x9000 (by unfold encode encodeWith; rw [fieldOpcode_encodeImm8]; decide) (by decide)

theorem bne (rd : Reg) (i : Int) : Statement (.bne rd i) :=
  opcode_row "bne" _ 0xA000 (by unfold encode encodeWith; rw [fieldOpcode_encodeImm8]; decide) (by decide)

theorem bgt (rd : Reg) (i : Int) : Statement (.bgt rd i) :=
  opcode_row "bgt" _ 0xB000 (by unfold encode encodeWith; rw [fieldOpcode_encodeImm8]; decide) (by decide)

theorem bge (rd : Reg) (i : Int) : Statement (.bge rd i) :=
  opcode_row "bge" _ 0xC000 (by unfold encode encodeWith; rw [fieldOpcode_encodeImm8]; decide) (by decide)

theorem blt (rd : Reg) (i : Int) : Statement (.blt rd i) :=
  opcode_row "blt" _ 0xD000 (by unfold encode encodeWith; rw [fieldOpcode_encodeImm8]; decide) (by decide)

theorem ble (rd : Reg) (i : Int) : Statement (.ble rd i) :=
  opcode_row "ble" _ 0xE000 (by unfold encode encodeWith; rw [fieldOpcode_encodeImm8]; decide) (by decide)

theorem out (rd : Reg) : Statement (.out rd) :=
  encodeR_row "out" _ _ _ _ _ 0xF000 (by decide) (by decide)

theorem outs (rd : Reg) : Statement (.outs rd) :=
  encodeR_row "outs" _ _ _ _ _ 0xF001 (by decide) (by decide)

theorem outn (rd : Reg) : Statement (.outn rd) :=
  encodeR_row "outn" _ _ _ _ _ 0xF002 (by decide) (by decide)

theorem halt : Statement .halt := ⟨haltRow, List.mem_cons_self, rfl, by decide⟩

end OnTableRow

end Sys2Proof.Laws
end

