-- ==== Sys2Proof/Machine/AsmText.lean ====
section
/-! DEFINITION. The toolchain's text: statement and operand notation (spec/30_encoding.md R110 to R112, R116, R121,
R122) and the `.mem` image lines (spec/20_memory.md R63). Toolchain, not hardware (R5). What these rules leave open is
in notes/assumptions/25.md, 29 to 38 and 40. -/

namespace Sys2Proof.Machine

/-! ## Tokens of a line (R110, D24) -/

/-- A word between separators, or a string between quotation marks. -/
inductive Token where
  | word (chars : List Char)
  | str (chars : List Char)
  deriving DecidableEq, Repr

/-- Where the scan of a line stands: between or inside words, or inside a string. The characters read so far stand in
reverse. -/
inductive ScanMode where
  | plain (seen : List Char)
  | quoted (seen : List Char)
  deriving DecidableEq, Repr

/-- "Operands are separated by white space, by commas, or both" (R110). Which characters are white space is a DESIGN
CHOICE (notes/assumptions/30.md): space, tab and carriage return; a line feed ends the line. -/
def isSeparator (c : Char) : Bool := c = ' ' || c = '\t' || c = '\r' || c = ','

/-- The word read so far, if any. -/
def flushWord (seen : List Char) : List Token := if seen = [] then [] else [.word seen.reverse]

/-- Put tokens before those of the rest of the line. -/
def prependTokens (ts : List Token) (rest : Except AsmError (List Token)) : Except AsmError (List Token) :=
  match rest with
  | .ok us => .ok (ts ++ us)
  | .error e => .error e

/-- The tokens of a line. "A `#` starts a comment that runs to the end of the line" (R110). Commas need not stand
singly, nor between operands: DESIGN CHOICE (notes/assumptions/38.md). -/
def scanLine : List Char → ScanMode → Except AsmError (List Token)
  | [], .plain seen => .ok (flushWord seen)
  | [], .quoted seen => .error (.parseError (String.ofList seen.reverse))
  | c :: rest, .quoted seen =>
    if c = '"' then prependTokens [.str seen.reverse] (scanLine rest (.plain []))
    else scanLine rest (.quoted (c :: seen))
  | c :: rest, .plain seen =>
    if c = '#' then .ok (flushWord seen)
    else if c = '"' then prependTokens (flushWord seen) (scanLine rest (.quoted []))
    else if isSeparator c then prependTokens (flushWord seen) (scanLine rest (.plain []))
    else scanLine rest (.plain (c :: seen))

/-! ## Numbers and operands (R111) -/

/-- The value of a digit in a radix; a hexadecimal letter may be of either case (DESIGN CHOICE,
notes/assumptions/40.md). -/
def digitValue (radix : Nat) (c : Char) : Option Nat :=
  let v :=
    if '0' ≤ c ∧ c ≤ '9' then some (c.toNat - '0'.toNat)
    else if 'a' ≤ c ∧ c ≤ 'f' then some (c.toNat - 'a'.toNat + 10)
    else if 'A' ≤ c ∧ c ≤ 'F' then some (c.toNat - 'A'.toNat + 10)
    else none
  match v with
  | some d => if d < radix then some d else none
  | none => none

/-- The value of digits read after `value`. -/
def digitsFrom (radix : Nat) : List Char → Nat → Option Nat
  | [], value => some value
  | c :: rest, value =>
    match digitValue radix c with
    | some d => digitsFrom radix rest (value * radix + d)
    | none => none

/-- The value of at least one digit. -/
def digits (radix : Nat) (cs : List Char) : Option Nat := if cs = [] then none else digitsFrom radix cs 0

/-- "decimal (no prefix), hex (`0x`/`0X`), and binary (`0b`/`0B`)" (R111). -/
def unsignedLiteral : List Char → Option Nat
  | '0' :: 'x' :: rest => digits 16 rest
  | '0' :: 'X' :: rest => digits 16 rest
  | '0' :: 'b' :: rest => digits 2 rest
  | '0' :: 'B' :: rest => digits 2 rest
  | cs => digits 10 cs

/-- A number as written: without a sign, or negated. -/
inductive Literal where
  | unsigned (n : Nat)
  | signed (n : Int)
  deriving DecidableEq, Repr

/-- "each optionally negated" (R111): a negated literal is a signed integer, any other an unsigned one
(DESIGN CHOICE, notes/assumptions/36.md). -/
def numericLiteral : List Char → Option Literal
  | '-' :: rest => (unsignedLiteral rest).map (fun n => .signed (-(n : Int)))
  | cs => (unsignedLiteral cs).map .unsigned

/-- An operand, typed "(signed integer, unsigned integer, register, label, string)" (R111). -/
inductive Operand where
  | signed (n : Int)
  | unsigned (n : Nat)
  | reg (r : Reg)
  | label (name : String)
  | str (text : String)
  deriving DecidableEq, Repr

/-- The operand of a number. -/
def Literal.operand : Literal → Operand
  | .unsigned n => .unsigned n
  | .signed n => .signed n

/-- An operand and the token it was read from, which an error names (R111). -/
structure Arg where
  token : String
  value : Operand
  deriving DecidableEq, Repr

/-- "a malformed operand is a parse error naming the token" (R111); an operand of the wrong type is one too. -/
def Arg.malformed {α : Type} (a : Arg) : Except AsmError α := .error (.parseError a.token)

/-- `r0` to `r7` (R111). -/
def standardRegister (cs : List Char) : Option Reg :=
  match cs with
  | ['r', d] =>
    match digitValue 8 d with
    | some n => some (Reg.ofField (BitVec.ofNat 3 n))
    | none => none
  | _ => none

/-- The names that `.ralias` directives have installed (R116). -/
abbrev RegisterNames := List (List Char × Reg)

/-- One word as an operand (R111). A word that could be read in several ways is a standard register first, then an
installed name, then a number (DESIGN CHOICE, notes/assumptions/31.md). -/
def parseWord (names : RegisterNames) (cs : List Char) : Except AsmError Operand :=
  match cs with
  | '&' :: name =>
    if name = [] then .error (.parseError (String.ofList cs)) else .ok (.label (String.ofList name))
  | _ =>
    match standardRegister cs, names.find? (fun n => decide (n.1 = cs)), numericLiteral cs with
    | some r, _, _ => .ok (.reg r)
    | none, some n, _ => .ok (.reg n.2)
    | none, none, some v => .ok v.operand
    | none, none, none => .error (.parseError (String.ofList cs))

/-- One operand with its token (R111). -/
def parseOperand (names : RegisterNames) : Token → Except AsmError Arg
  | .str cs => .ok { token := String.ofList cs, value := .str (String.ofList cs) }
  | .word cs =>
    match parseWord names cs with
    | .ok o => .ok { token := String.ofList cs, value := o }
    | .error e => .error e

/-- The operands of a statement, in order. -/
def parseOperands (names : RegisterNames) : List Token → Except AsmError (List Arg)
  | [] => .ok []
  | t :: rest =>
    match parseOperand names t, parseOperands names rest with
    | .ok o, .ok os => .ok (o :: os)
    | .error e, _ => .error e
    | _, .error e => .error e

/-! ## Statements (R112 to R116) -/

/-- An operand that must be a register; operands are "never silently reinterpreted" (R111), and a label is not
meaningful there (R120). -/
def Arg.asReg (a : Arg) : Except AsmError Reg :=
  match a.value with
  | .reg r => .ok r
  | .label _ => .error .labelNotMeaningful
  | .signed _ => a.malformed
  | .unsigned _ => a.malformed
  | .str _ => a.malformed

/-- An operand that must be a number of either type. -/
def Arg.asInt (a : Arg) : Except AsmError Int :=
  match a.value with
  | .signed n => .ok n
  | .unsigned n => .ok n
  | .label _ => .error .labelNotMeaningful
  | .reg _ => a.malformed
  | .str _ => a.malformed

/-- An operand that must be an unsigned number. -/
def Arg.asNat (a : Arg) : Except AsmError Nat :=
  match a.value with
  | .unsigned n => .ok n
  | .label _ => .error .labelNotMeaningful
  | .signed _ => a.malformed
  | .reg _ => a.malformed
  | .str _ => a.malformed

/-- A real instruction whose last operand is a literal or a label; a label's placeholder is 0 (R112, R113). -/
def withImmediate (make : Int → Instr) (a : Arg) : Except AsmError Line :=
  match a.value with
  | .label name => .ok (.labelled (make 0) name)
  | _ =>
    match a.asInt with
    | .ok n => .ok (.real (make n))
    | .error e => .error e

/-- A statement with one register operand. -/
def oneReg (mnemonic : String) (make : Reg → Line) : List Arg → Except AsmError Line
  | [a] =>
    match a.asReg with
    | .ok ra => .ok (make ra)
    | .error e => .error e
  | _ => .error (.operandArity mnemonic)

/-- A statement with two register operands. -/
def twoRegs (mnemonic : String) (make : Reg → Reg → Line) : List Arg → Except AsmError Line
  | [a, b] =>
    match a.asReg, b.asReg with
    | .ok ra, .ok rb => .ok (make ra rb)
    | .error e, _ => .error e
    | _, .error e => .error e
  | _ => .error (.operandArity mnemonic)

/-- A statement with three register operands. -/
def threeRegs (mnemonic : String) (make : Reg → Reg → Reg → Instr) : List Arg → Except AsmError Line
  | [a, b, c] =>
    match a.asReg, b.asReg, c.asReg with
    | .ok ra, .ok rb, .ok rc => .ok (.real (make ra rb rc))
    | .error e, _, _ => .error e
    | _, .error e, _ => .error e
    | _, _, .error e => .error e
  | _ => .error (.operandArity mnemonic)

/-- `rd, rs1, imm6`. -/
def twoRegsImm (mnemonic : String) (make : Reg → Reg → Int → Instr) : List Arg → Except AsmError Line
  | [a, b, c] =>
    match a.asReg, b.asReg with
    | .ok ra, .ok rb => withImmediate (make ra rb) c
    | .error e, _ => .error e
    | _, .error e => .error e
  | _ => .error (.operandArity mnemonic)

/-- `rd, imm8`. -/
def regImm (mnemonic : String) (make : Reg → Int → Instr) : List Arg → Except AsmError Line
  | [a, b] =>
    match a.asReg with
    | .ok ra => withImmediate (make ra) b
    | .error e => .error e
  | _ => .error (.operandArity mnemonic)

/-- A pseudo-op's last operand: a literal or a label (R114). -/
def literalOrLabel (literal : Int → Line) (label : String → Line) (a : Arg) : Except AsmError Line :=
  match a.value with
  | .label name => .ok (label name)
  | _ =>
    match a.asInt with
    | .ok n => .ok (literal n)
    | .error e => .error e

/-- `br target` (R114). -/
def brLine : List Arg → Except AsmError Line
  | [a] => literalOrLabel (fun n => .pseudo (.br n)) .brLabel a
  | _ => .error (.operandArity "br")

/-- `lwi rd, const_or_label` (R114). -/
def lwiLine : List Arg → Except AsmError Line
  | [a, b] =>
    match a.asReg with
    | .ok r => literalOrLabel (fun n => .pseudo (.lwi r n)) (.lwiLabel r) b
    | .error e => .error e
  | _ => .error (.operandArity "lwi")

/-- `.org n` (R116). That n is an unsigned integer, so that a negated literal is a parse error, is a DESIGN CHOICE
(notes/assumptions/32.md); what the rule names as fatal is a label, which `passOne` refuses. -/
def orgLine : List Arg → Except AsmError Line
  | [a] =>
    match a.asNat with
    | .ok n => .ok (.org n)
    | .error e => .error e
  | _ => .error (.operandArity ".org")

/-- `name: .def value` (R116). The form with the name as an operand is `defNamed`'s. -/
def defLine : List Arg → Except AsmError Line
  | [a] =>
    match a.asInt with
    | .ok n => .ok (.define n)
    | .error e => .error e
  | _ => .error (.operandArity ".def")

/-- The values of `.fill`. -/
def fillValues : List Arg → Except AsmError (List Int)
  | [] => .ok []
  | a :: rest =>
    match a.asInt, fillValues rest with
    | .ok n, .ok ns => .ok (n :: ns)
    | .error e, _ => .error e
    | _, .error e => .error e

/-- `.fill v1 v2 …`, at least one value (R112, R116). -/
def fillLine (os : List Arg) : Except AsmError Line :=
  if os = [] then .error (.operandArity ".fill")
  else
    match fillValues os with
    | .ok ns => .ok (.fill ns)
    | .error e => .error e

/-- `.cstr "s"`; a string operand is legal only here (R111, R116). -/
def cstrLine : List Arg → Except AsmError Line
  | [a] =>
    match a.value with
    | .str text => .ok (.cstr text)
    | .label _ => .error .labelNotMeaningful
    | .signed _ => a.malformed
    | .unsigned _ => a.malformed
    | .reg _ => a.malformed
  | _ => .error (.operandArity ".cstr")

/-- A statement without operands. -/
def bareLine (mnemonic : String) (l : Line) (os : List Arg) : Except AsmError Line :=
  if os = [] then .ok l else .error (.operandArity mnemonic)

/-- The statement of a mnemonic or directive (R112, R114, R116), lower case only (R122, D24). -/
def parseBody (mnemonic : String) (os : List Arg) : Except AsmError Line :=
  if mnemonic = "add" then threeRegs mnemonic .add os
  else if mnemonic = "sub" then threeRegs mnemonic .sub os
  else if mnemonic = "and" then threeRegs mnemonic .and os
  else if mnemonic = "or" then threeRegs mnemonic .or os
  else if mnemonic = "not" then twoRegs mnemonic (fun a b => .real (.not a b)) os
  else if mnemonic = "mul" then threeRegs mnemonic .mul os
  else if mnemonic = "div" then threeRegs mnemonic .div os
  else if mnemonic = "mod" then threeRegs mnemonic .mod os
  else if mnemonic = "jalr" then twoRegs mnemonic (fun a b => .real (.jalr a b)) os
  else if mnemonic = "in" then oneReg mnemonic (fun a => .real (.inp a)) os
  else if mnemonic = "out" then oneReg mnemonic (fun a => .real (.out a)) os
  else if mnemonic = "outs" then oneReg mnemonic (fun a => .real (.outs a)) os
  else if mnemonic = "outn" then oneReg mnemonic (fun a => .real (.outn a)) os
  else if mnemonic = "addi" then twoRegsImm mnemonic .addi os
  else if mnemonic = "shf" then twoRegsImm mnemonic .shf os
  else if mnemonic = "lw" then twoRegsImm mnemonic .lw os
  else if mnemonic = "sw" then twoRegsImm mnemonic .sw os
  else if mnemonic = "lli" then regImm mnemonic .lli os
  else if mnemonic = "lui" then regImm mnemonic .lui os
  else if mnemonic = "beq" then regImm mnemonic .beq os
  else if mnemonic = "bne" then regImm mnemonic .bne os
  else if mnemonic = "bgt" then regImm mnemonic .bgt os
  else if mnemonic = "bge" then regImm mnemonic .bge os
  else if mnemonic = "blt" then regImm mnemonic .blt os
  else if mnemonic = "ble" then regImm mnemonic .ble os
  else if mnemonic = "mov" then twoRegs mnemonic (fun a b => .pseudo (.mov a b)) os
  else if mnemonic = "halt" then bareLine mnemonic (.pseudo .halt) os
  else if mnemonic = "jmp" then oneReg mnemonic (fun a => .pseudo (.jmp a)) os
  else if mnemonic = "br" then brLine os
  else if mnemonic = "push" then twoRegs mnemonic (fun a b => .pseudo (.push a b)) os
  else if mnemonic = "pop" then twoRegs mnemonic (fun a b => .pseudo (.pop a b)) os
  else if mnemonic = "lwi" then lwiLine os
  else if mnemonic = ".org" then orgLine os
  else if mnemonic = ".def" then defLine os
  else if mnemonic = ".fill" then fillLine os
  else if mnemonic = ".cstr" then cstrLine os
  else if mnemonic = ".halt" then bareLine mnemonic .haltDirective os
  else .error (.parseError mnemonic)

/-! ## Programs (R110) -/

/-- What the parser carries from line to line: the installed register names, the labels that wait for their statement,
and the statements so far. -/
structure ParseState where
  names : RegisterNames
  pending : List String
  statements : List Statement
  deriving DecidableEq, Repr

/-- The label of a token that ends in a colon (R110). -/
def labelOf (cs : List Char) : Option String :=
  match cs.reverse with
  | ':' :: name => if name = [] then none else some (String.ofList name.reverse)
  | _ => none

/-- `.ralias real name`: "fatal if the real name is not a standard `r0`–`r7`" (R116). DESIGN CHOICES: the error is the
parse error of the name (notes/assumptions/34.md), and labels that wait pass over this directive to the next statement,
on its own line or before it (notes/assumptions/29.md). -/
def installName (p : ParseState) : List Token → Except AsmError ParseState
  | [.word real, .word name] =>
    match standardRegister real with
    | some r => .ok { p with names := (name, r) :: p.names }
    | none => .error (.parseError (String.ofList real))
  | _ => .error (.operandArity ".ralias")

/-- `.def name value` (D24): the name is one more label of the statement. A name that reads as another operand is a
parse error (notes/assumptions/35.md). -/
def defNamed (p : ParseState) (name : List Char) (value : Token) : Except AsmError ParseState :=
  match parseWord p.names name, parseOperands p.names [value] with
  | .ok _, _ => .error (.parseError (String.ofList name))
  | .error _, .error e => .error e
  | .error e, .ok os =>
    if name.head? = some '&' then .error e
    else
      match defLine os with
      | .error f => .error f
      | .ok l =>
        .ok { p with pending := [], statements := p.statements ++ [⟨p.pending ++ [String.ofList name], l⟩] }

/-- A statement, which takes the waiting labels with it. -/
def addStatement (p : ParseState) (mnemonic : String) (rest : List Token) : Except AsmError ParseState :=
  match parseOperands p.names rest with
  | .error e => .error e
  | .ok os =>
    match parseBody mnemonic os with
    | .error e => .error e
    | .ok l => .ok { p with pending := [], statements := p.statements ++ [⟨p.pending, l⟩] }

/-- A line after its label: nothing, a directive that takes a bare name, or a statement. -/
def parseStatement (p : ParseState) : List Token → Except AsmError ParseState
  | [] => .ok p
  | .str cs :: _ => .error (.parseError (String.ofList cs))
  | .word cs :: rest =>
    if String.ofList cs = ".ralias" then installName p rest
    else
      match String.ofList cs, rest with
      | ".def", [.word name, value] => defNamed p name value
      | mnemonic, _ => addStatement p mnemonic rest

/-- One line: `[label:] [mnemonic operand...] [# comment]` (R110). "A label on its own line attaches to the next
instruction." -/
def parseLine (p : ParseState) (line : List Char) : Except AsmError ParseState :=
  match scanLine line (.plain []) with
  | .error e => .error e
  | .ok (.word cs :: rest) =>
    match labelOf cs with
    | some l => parseStatement { p with pending := p.pending ++ [l] } rest
    | none => parseStatement p (.word cs :: rest)
  | .ok ts => parseStatement p ts

/-- The lines of a text. -/
def splitLines : List Char → List Char → List (List Char)
  | [], seen => [seen.reverse]
  | c :: rest, seen => if c = '\n' then seen.reverse :: splitLines rest [] else splitLines rest (c :: seen)

/-- The statements of the lines, or the first error. -/
def parseLines : ParseState → List (List Char) → Except AsmError (List Statement)
  | p, [] => .ok p.statements
  | p, l :: rest =>
    match parseLine p l with
    | .ok q => parseLines q rest
    | .error e => .error e

/-- The statements of a program's text. -/
def parseProgram (text : List Char) : Except AsmError (List Statement) :=
  parseLines { names := [], pending := [], statements := [] } (splitLines text [])

/-- The image of a program's text: "source text → parser → ... → flat memory image" (R293). -/
def assembleText (text : List Char) : Except AsmError (List (Nat × Word)) :=
  match parseProgram text with
  | .ok program => assemble program
  | .error e => .error e

/-! ## The `.mem` image (R63) -/

/-- Four hexadecimal digits, most significant first (R56 c). -/
def hexWord : List Char → Option Word
  | [a, b, c, d] => (digits 16 [a, b, c, d]).map (fun n => BitVec.ofNat 16 n)
  | _ => none

/-- The words of a line, at consecutive addresses from the cursor; the cursor after them comes first. A word that is
not four hexadecimal digits is a parse error (DESIGN CHOICE, notes/assumptions/37.md). -/
def memWords : Nat → List Token → Except AsmError (Nat × List (Nat × Word))
  | cursor, [] => .ok (cursor, [])
  | _, .str cs :: _ => .error (.parseError (String.ofList cs))
  | cursor, .word cs :: rest =>
    match hexWord cs, memWords (cursor + 1) rest with
    | some w, .ok (c, ws) => .ok (c, (cursor, w) :: ws)
    | none, _ => .error (.parseError (String.ofList cs))
    | _, .error e => .error e

/-- The lines of an image: `:` and an address sets the cursor; other lines hold words (R63). White space may stand
before the colon, and nothing but white space after the address (DESIGN CHOICE, notes/assumptions/37.md). -/
def memLines : Nat → List (List Char) → Except AsmError (List (Nat × Word))
  | _, [] => .ok []
  | cursor, l :: rest =>
    match scanLine l (.plain []) with
    | .error e => .error e
    | .ok [.word (':' :: cs)] =>
      match hexWord cs with
      | some a => memLines a.toNat rest
      | none => .error (.parseError (String.ofList cs))
    | .ok ts =>
      match memWords cursor ts with
      | .error e => .error e
      | .ok (c, ws) =>
        match memLines c rest with
        | .ok more => .ok (ws ++ more)
        | .error e => .error e

/-- The image of a `.mem` text. -/
def readMem (text : List Char) : Except AsmError (List (Nat × Word)) := memLines 0 (splitLines text [])

end Sys2Proof.Machine
end

