-- ==== Sys2Proof/Tests/Slice0.lean ====
section
/-! SUPPORT. Tests: the well-formedness check refuses what is out of range; words written out from the spec's encoding
tables decode to the instruction they stand for; one step of each instruction on the spec's own vectors
(spec/95_test_vectors.md, cited by id); and, for every obligation with hypotheses, a state that meets them. -/

namespace Sys2Proof.Tests

open Sys2Proof.Machine

/-! ## Well-formedness (R85) -/

theorem test_ill_formed_addi : (Instr.addi .r1 .r2 32).wellFormed = false ∧ (Instr.addi .r1 .r2 (-33)).wellFormed = false ∧
    (Instr.addi .r1 .r2 31).wellFormed = true ∧ (Instr.addi .r1 .r2 (-32)).wellFormed = true := by decide

theorem test_ill_formed_shf : (Instr.shf .r1 .r2 32).wellFormed = false ∧ (Instr.shf .r1 .r2 (-33)).wellFormed = false ∧
    (Instr.shf .r1 .r2 31).wellFormed = true ∧ (Instr.shf .r1 .r2 (-32)).wellFormed = true := by decide

theorem test_ill_formed_lw : (Instr.lw .r1 .r2 32).wellFormed = false ∧ (Instr.lw .r1 .r2 (-33)).wellFormed = false ∧
    (Instr.lw .r1 .r2 31).wellFormed = true ∧ (Instr.lw .r1 .r2 (-32)).wellFormed = true := by decide

theorem test_ill_formed_sw : (Instr.sw .r1 .r2 32).wellFormed = false ∧ (Instr.sw .r1 .r2 (-33)).wellFormed = false ∧
    (Instr.sw .r1 .r2 31).wellFormed = true ∧ (Instr.sw .r1 .r2 (-32)).wellFormed = true := by decide

theorem test_ill_formed_lli : (Instr.lli .r1 128).wellFormed = false ∧ (Instr.lli .r1 (-129)).wellFormed = false ∧
    (Instr.lli .r1 127).wellFormed = true ∧ (Instr.lli .r1 (-128)).wellFormed = true := by decide

theorem test_ill_formed_lui : (Instr.lui .r1 128).wellFormed = false ∧ (Instr.lui .r1 (-129)).wellFormed = false ∧
    (Instr.lui .r1 127).wellFormed = true ∧ (Instr.lui .r1 (-128)).wellFormed = true := by decide

theorem test_ill_formed_beq : (Instr.beq .r1 128).wellFormed = false ∧ (Instr.beq .r1 (-129)).wellFormed = false ∧
    (Instr.beq .r1 127).wellFormed = true ∧ (Instr.beq .r1 (-128)).wellFormed = true := by decide

theorem test_ill_formed_bne : (Instr.bne .r1 128).wellFormed = false ∧ (Instr.bne .r1 (-129)).wellFormed = false ∧
    (Instr.bne .r1 127).wellFormed = true ∧ (Instr.bne .r1 (-128)).wellFormed = true := by decide

theorem test_ill_formed_bgt : (Instr.bgt .r1 128).wellFormed = false ∧ (Instr.bgt .r1 (-129)).wellFormed = false ∧
    (Instr.bgt .r1 127).wellFormed = true ∧ (Instr.bgt .r1 (-128)).wellFormed = true := by decide

theorem test_ill_formed_bge : (Instr.bge .r1 128).wellFormed = false ∧ (Instr.bge .r1 (-129)).wellFormed = false ∧
    (Instr.bge .r1 127).wellFormed = true ∧ (Instr.bge .r1 (-128)).wellFormed = true := by decide

theorem test_ill_formed_blt : (Instr.blt .r1 128).wellFormed = false ∧ (Instr.blt .r1 (-129)).wellFormed = false ∧
    (Instr.blt .r1 127).wellFormed = true ∧ (Instr.blt .r1 (-128)).wellFormed = true := by decide

theorem test_ill_formed_ble : (Instr.ble .r1 128).wellFormed = false ∧ (Instr.ble .r1 (-129)).wellFormed = false ∧
    (Instr.ble .r1 127).wellFormed = true ∧ (Instr.ble .r1 (-128)).wellFormed = true := by decide

/-! ## Decoding: words written field by field from R81 to R83, R95 to R97 -/

/-- Format R, opcode 0: `opcode_rd_rs1_rs2_subfunc` (R96; V-E1 to V-E8, the rs2 field of `not` at 5). -/
theorem test_decode_math :
    recognise 0b0000_001_010_011_000 = .ok (.add .r1 .r2 .r3) ∧ recognise 0b0000_001_010_011_001 = .ok (.sub .r1 .r2 .r3) ∧
    recognise 0b0000_001_010_011_010 = .ok (.and .r1 .r2 .r3) ∧ recognise 0b0000_001_010_011_011 = .ok (.or .r1 .r2 .r3) ∧
    recognise 0b0000_011_001_101_100 = .ok (.not .r3 .r1) ∧ recognise 0b0000_001_010_011_101 = .ok (.mul .r1 .r2 .r3) ∧
    recognise 0b0000_001_010_011_110 = .ok (.div .r1 .r2 .r3) ∧ recognise 0b0000_001_010_011_111 = .ok (.mod .r1 .r2 .r3) := by
  decide

/-- Opcodes 1, 2 and 15 (V-E9 to V-E14): ignored bits set in the second word of each pair (R90). -/
theorem test_decode_register_only :
    recognise 0b0001_101_111_000_000 = .ok (.jalr .r5 .r7) ∧ recognise 0b0001_101_111_111_111 = .ok (.jalr .r5 .r7) ∧
    recognise 0b0010_100_000_000_000 = .ok (.inp .r4) ∧ recognise 0b0010_100_111_111_111 = .ok (.inp .r4) ∧
    recognise 0b1111_011_000_000_000 = .ok (.out .r3) ∧ recognise 0b1111_011_111_111_000 = .ok (.out .r3) ∧
    recognise 0b1111_011_000_000_001 = .ok (.outs .r3) ∧ recognise 0b1111_011_000_000_010 = .ok (.outn .r3) ∧
    recognise 0b1111_000_000_000_000 = .ok .halt ∧ recognise 0b1111_000_001_000_000 = .ok (.out .r0) := by decide

/-- Format Imm6: `opcode_rd_rs1_imm6` (V-E16 to V-E20). -/
theorem test_decode_imm6 :
    recognise 0b0011_100_100_111111 = .ok (.addi .r4 .r4 (-1)) ∧ recognise 0b0100_001_010_111101 = .ok (.shf .r1 .r2 (-3)) ∧
    recognise 0b0101_111_111_011111 = .ok (.lw .r7 .r7 31) ∧ recognise 0b0110_111_111_100000 = .ok (.sw .r7 .r7 (-32)) := by
  decide

/-- Format Imm8: `opcode_rd_0_imm8` (V-E21 to V-E30), and one word with bit 8 set (R83). -/
theorem test_decode_imm8 :
    recognise 0b0111_001_0_00110100 = .ok (.lli .r1 0x34) ∧ recognise 0b1000_001_0_00010010 = .ok (.lui .r1 0x12) ∧
    recognise 0b1001_100_0_00000100 = .ok (.beq .r4 4) ∧ recognise 0b1010_001_0_11111110 = .ok (.bne .r1 (-2)) ∧
    recognise 0b1011_001_0_00000101 = .ok (.bgt .r1 5) ∧ recognise 0b1100_001_0_00000101 = .ok (.bge .r1 5) ∧
    recognise 0b1101_001_0_00000101 = .ok (.blt .r1 5) ∧ recognise 0b1110_001_0_10000000 = .ok (.ble .r1 (-128)) ∧
    recognise 0b0111_001_1_00110100 = .ok (.lli .r1 0x34) := by decide

/-- Opcode 15 with selector 3 to 7 has no matching definition (R94). -/
theorem test_decode_illegal :
    ([0xF003, 0xF004, 0xF005, 0xF006, 0xFFFF] : List Word).map recognise = List.replicate 5 (.error .invalidOpcode) := by
  decide

/-- The encoder's words (V-E1, V-E16, V-E29; R86 for the out-of-range immediate). -/
theorem test_encode : encode (.add .r1 .r2 .r3) = 0x0298 ∧ encode (.addi .r4 .r4 (-1)) = 0x393F ∧
    encode (.ble .r1 (-128)) = 0xE280 ∧ encode (.lli .r1 0xF0) = 0x72F0 ∧ encode (.not .r1 .r2) = 0x0284 := by decide

theorem test_host_question : decodeTableWord 16 0xF000 = some .halt ∧ decodeTableWord 16 0x6443 = some (.sw .r2 .r1 3) ∧
    decodeTableWord 16 0xF007 = none := by decide

/-! ## One step of each instruction -/

/-- The spec's frame for a vector: pc `0x0100`, the word there, all else as after reset (95_test_vectors.md, 0). -/
def vec (w : Word) (regs : Regs) : State := { State.reset with pc := 0x0100, mem := [(0x0100, w)], regs := regs }

/-- Registers 1 to 3, the others 0. -/
def regs3 (a b c : Word) : Regs := { Regs.zero with r1 := a, r2 := b, r3 := c }

/-- The next state of a result. -/
def nextOf : Result → Option State
  | .next t => some t
  | .fault _ => none
  | .refused _ => none

/-- Register `r` and pc after one step. -/
def regPc (r : Reg) (s : State) : Option (Word × Nat) := (nextOf (step s)).map (fun t => (t.reg r, t.pc))

/-- pc after one step. -/
def pcAfter (s : State) : Option Nat := (nextOf (step s)).map State.pc

/-- The output and pc after one step. -/
def outPc (s : State) : Option (List OutEvent × Nat) := (nextOf (step s)).map (fun t => (t.out, t.pc))

/-- The data of cell `a` and pc after one step. -/
def cellPc (a : Int) (s : State) : Option (Word × Nat) := (nextOf (step s)).map (fun t => (t.memRead a, t.pc))

/-- The stop of a step, if any. -/
def faultOf : Result → Option Fault
  | .next _ => none
  | .fault e => some e
  | .refused _ => none

/-- R161: signed overflow wraps. -/
theorem test_add_wraps : regPc .r3 (vec 0x0650 (regs3 0x7FFF 1 0)) = some (0x8000, 0x0101) := by decide

/-- R161: `add r1, r1, r1`, source and destination one register. -/
theorem test_add_doubles : regPc .r1 (vec 0x0248 (regs3 0x8000 0 0)) = some (0, 0x0101) := by decide

/-- R162: rs1 minus rs2. -/
theorem test_sub_order : regPc .r3 (vec 0x0651 (regs3 5 7 0)) = some (0xFFFE, 0x0101) := by decide

/-- R163. -/
theorem test_and_bits : regPc .r3 (vec 0x0652 (regs3 0xF0F0 0x3C3C 0)) = some (0x3030, 0x0101) := by decide

/-- R164. -/
theorem test_or_bits : regPc .r3 (vec 0x0653 (regs3 0xF0F0 0x3C3C 0)) = some (0xFCFC, 0x0101) := by decide

/-- R165: the rs2 field (5) is ignored. -/
theorem test_not_ignores_rs2 : regPc .r3 (vec 0x066C (regs3 0xF0F0 0 0)) = some (0x0F0F, 0x0101) := by decide

/-- R166: -300 times 300. -/
theorem test_mul_signed : regPc .r3 (vec 0x0655 (regs3 0xFED4 300 0)) = some (0xA070, 0x0101) := by decide

/-- R167: -7 / 2. -/
theorem test_div_toward_zero : regPc .r3 (vec 0x0656 (regs3 0xFFF9 2 0)) = some (0xFFFD, 0x0101) := by decide

/-- R167, U7: -32768 / -1. -/
theorem test_div_overflow_wraps : regPc .r3 (vec 0x0656 (regs3 0x8000 0xFFFF 0)) = some (0x8000, 0x0101) := by decide

/-- R168: -7 mod 2. -/
theorem test_mod_sign_of_dividend : regPc .r3 (vec 0x0657 (regs3 0xFFF9 2 0)) = some (0xFFFF, 0x0101) := by decide

/-- R168: 7 mod -2. -/
theorem test_mod_negative_divisor : regPc .r3 (vec 0x0657 (regs3 7 0xFFFE 0)) = some (1, 0x0101) := by decide

/-- R253: a zero divisor raises, also with rd = 0 (`div r0, r1, r2`, `mod r0, r1, r2`). -/
theorem test_zero_divisor : faultOf (step (vec 0x0056 (regs3 5 0 0))) = some (.error .divideByZero) ∧
    faultOf (step (vec 0x0057 (regs3 5 0 0))) = some (.error .divideByZero) := by decide

/-- R180: `jalr r2, r3`: rd holds the target, rs1 receives the link. -/
theorem test_jalr_links : regPc .r3 (vec 0x14C0 (regs3 0 0x0200 0)) = some (0x0101, 0x0200) := by decide

/-- R180 b, D20: `jalr r1, r1` jumps to the old value. -/
theorem test_jalr_same_register : regPc .r1 (vec 0x1240 (regs3 0x0200 0 0)) = some (0x0101, 0x0200) := by decide

/-- R185: `in r4` takes the head. -/
theorem test_in_takes_head :
    (nextOf (step { vec 0x2800 Regs.zero with inQ := [0xFFFE, 3] })).map (fun t => (t.reg .r4, t.inQ, t.pc)) =
      some (0xFFFE, [3], 0x0101) := by decide

/-- R251. -/
theorem test_in_empty_queue : faultOf (step (vec 0x2800 Regs.zero)) = some (.error .inputExhausted) := by decide

/-- R200: `addi r1, r2, -1` of 0x8000. -/
theorem test_addi_wraps : regPc .r1 (vec 0x32BF (regs3 0 0x8000 0)) = some (0x7FFF, 0x0101) := by decide

/-- R200: 0xFFFF + 31. -/
theorem test_addi_largest : regPc .r1 (vec 0x329F (regs3 0 0xFFFF 0)) = some (0x001E, 0x0101) := by decide

/-- R201, D10: `shf r1, r2, -3` of 0x8000. -/
theorem test_shf_right_is_logical : regPc .r1 (vec 0x42BD (regs3 0 0x8000 0)) = some (0x1000, 0x0101) := by decide

/-- R201: `shf r1, r2, 31` leaves nothing. -/
theorem test_shf_count_above_width : regPc .r1 (vec 0x429F (regs3 0 0xFFFF 0)) = some (0, 0x0101) := by decide

/-- R211: `lw r2, r1, -1` from base 0 reads the last cell. -/
theorem test_lw_wraps : regPc .r2 { vec 0x547F Regs.zero with mem := [(0x0100, 0x547F), (0xFFFF, 0x1234)] } =
    some (0x1234, 0x0101) := by decide

/-- R211: `lw r1, r1, 0`, base and destination one register. -/
theorem test_lw_same_register : regPc .r1 { vec 0x5240 (regs3 0x0200 0 0) with mem := [(0x0100, 0x5240), (0x0200, 7)] } =
    some (7, 0x0101) := by decide

/-- R212: `sw r2, r1, 3`. -/
theorem test_sw_stores : cellPc 0x0203 (vec 0x6443 (regs3 0x0200 0xBEEF 0)) = some (0xBEEF, 0x0101) := by decide

/-- R212: `sw r1, r1, 0` stores the address into the cell it names. -/
theorem test_sw_same_register : cellPc 0x0200 (vec 0x6240 (regs3 0x0200 0 0)) = some (0x0200, 0x0101) := by decide

/-- R220: imm8 = 0x80. -/
theorem test_lli_sign_extends : regPc .r1 (vec 0x7280 (regs3 0x1234 0 0)) = some (0xFF80, 0x0101) := by decide

/-- R221: imm8 = 0x80. -/
theorem test_lui_keeps_low_byte : regPc .r1 (vec 0x8280 (regs3 0xABCD 0 0)) = some (0x80CD, 0x0101) := by decide

/-- R231: `beq r1, -1` on 0 branches to itself. -/
theorem test_beq_taken_backward : pcAfter (vec 0x92FF (regs3 0 0 0)) = some 0x0100 := by decide

/-- R231. -/
theorem test_beq_not_taken : pcAfter (vec 0x92FF (regs3 0x8000 0 0)) = some 0x0101 := by decide

/-- R232: `bne r1, -2`. -/
theorem test_bne_taken : pcAfter (vec 0xA2FE (regs3 1 0 0)) = some 0x00FF := by decide

/-- R232. -/
theorem test_bne_not_taken : pcAfter (vec 0xA2FE (regs3 0 0 0)) = some 0x0101 := by decide

/-- R233 at the largest positive value. -/
theorem test_bgt_taken : pcAfter (vec 0xB205 (regs3 0x7FFF 0 0)) = some 0x0106 := by decide

/-- R233 on zero. -/
theorem test_bgt_not_taken : pcAfter (vec 0xB205 (regs3 0 0 0)) = some 0x0101 := by decide

/-- R234 on zero. -/
theorem test_bge_taken : pcAfter (vec 0xC205 (regs3 0 0 0)) = some 0x0106 := by decide

/-- R234 on -1. -/
theorem test_bge_not_taken : pcAfter (vec 0xC205 (regs3 0xFFFF 0 0)) = some 0x0101 := by decide

/-- R235 at the least value. -/
theorem test_blt_taken : pcAfter (vec 0xD205 (regs3 0x8000 0 0)) = some 0x0106 := by decide

/-- R235 on zero. -/
theorem test_blt_not_taken : pcAfter (vec 0xD205 (regs3 0 0 0)) = some 0x0101 := by decide

/-- R236: `ble r1, -128`. -/
theorem test_ble_taken : pcAfter (vec 0xE280 (regs3 0xFFFF 0 0)) = some 0x0081 := by decide

/-- R236 on 1. -/
theorem test_ble_not_taken : pcAfter (vec 0xE280 (regs3 1 0 0)) = some 0x0101 := by decide

/-- R238: `beq r0, 127` at 0xFFF0 wraps past the end of memory. -/
theorem test_branch_wraps : pcAfter { State.reset with pc := 0xFFF0, mem := [(0xFFF0, 0x907F)] } = some 0x0070 := by decide

/-- R187: a zero Word is output and does not halt. -/
theorem test_out_zero_value : outPc (vec 0xF600 Regs.zero) = some ([.num .out 0], 0x0101) := by decide

/-- R189. -/
theorem test_outn : outPc (vec 0xF602 (regs3 0 0 9)) = some ([.num .outn 9], 0x0101) := by decide

/-- A state whose last cell and first two cells hold a string. -/
def stringAtEnd : State :=
  { vec 0xF601 (regs3 0 0 0xFFFF) with mem := [(0, 0x69), (1, 0), (0x0100, 0xF601), (0xFFFF, 0x48)] }

/-- R188: the string read wraps at the end of memory. -/
theorem test_outs_wraps : outPc stringAtEnd = some ([.str [0x48, 0x69]], 0x0101) := by decide

/-- R186, R137: `outs r0` halts in place and counts a cycle; R135: the sentinel counts none. -/
theorem test_halts : (nextOf (step (vec 0xF001 Regs.zero))).map (fun t => (t.status, t.pc, t.cycles)) =
      some (.halted, 0x0100, 1) ∧
    (nextOf (step (vec 0xF000 Regs.zero))).map (fun t => (t.status, t.pc, t.cycles)) = some (.halted, 0x0100, 0) := by
  decide

/-- R252. -/
theorem test_illegal_word : faultOf (step (vec 0xF003 Regs.zero)) = some (.error .invalidOpcode) := by decide

/-- What the host finds with `withFetchWord`: the very next step runs the word (`add r3, r1, r2` at pc 0). -/
theorem test_with_fetch_word : pcAfter (State.reset.withFetchWord 16 0x0650) = some 1 ∧
    recognise (State.reset.withFetchWord 16 0x0650).fetchWord = .ok (.add .r3 .r1 .r2) := by decide

/-! ## The loop and the assembler -/

/-- The stop reason, status, pc and cycle count of a call. -/
def stopOf : CallResult → Option (StopReason × Status × Nat × Nat)
  | .returned r t => some (r, t.status, t.pc, t.cycles)
  | .hangs => none
  | .refused _ => none

/-- V-L: a budget of one, a breakpoint, a fault (R133, R138, R141). -/
theorem test_stop_reasons :
    stopOf (runCall 1 (vec 0x0000 Regs.zero)) = some (.cyclesExceeded, .paused, 0x0101, 1) ∧
    stopOf (runCall 5 { vec 0x0000 Regs.zero with bps := [0x0100] }) = some (.breakpoint, .paused, 0x0100, 0) ∧
    stopOf (runCall 5 (vec 0xF003 Regs.zero)) = some (.fault .invalidOpcode, .running, 0x0100, 0) ∧
    stopOf (runCall 0 (vec 0xF000 Regs.zero)) = some (.cyclesExceeded, .paused, 0x0100, 0) := by decide

/-- S4: the two label references of the source, and one that is too far. -/
theorem test_branch_relocation : relocate 0 0x9000 0xFFF0 = .ok 0x90EF ∧ relocate 0 0x9000 0x0010 = .ok 0x900F ∧
    relocate 0 0x9000 0x0082 = .error .relocationRange := by decide

/-- S9: `lwi r1, 0x1234`. -/
theorem test_lwi_words : (PseudoOp.lwi .r1 0x1234).expand.map encode = [0x7234, 0x8212] := by decide

/-- S6's program with its labels (R113, R117). -/
theorem test_assemble_labels :
    assemble [⟨["loop"], .real (.addi .r4 .r4 (-1))⟩, ⟨[], .labelled (.beq .r4 0) "end"⟩, ⟨[], .brLabel "loop"⟩,
      ⟨["end"], .haltDirective⟩] = .ok [(0, 0x393F), (1, 0x9801), (2, 0x90FD), (3, 0xF000)] := by decide

set_option maxRecDepth 4000 in
/-- R110, R111: a label on its own line, commas and spaces, a comment. -/
theorem test_parse_program :
    parseProgram "loop: addi r4, r4 -1 # decrement\n beq r4 &end\nend:\n.halt".toList =
      .ok [⟨["loop"], .real (.addi .r4 .r4 (-1))⟩, ⟨[], .labelled (.beq .r4 0) "end"⟩, ⟨["end"], .haltDirective⟩] := by
  decide

set_option maxRecDepth 4000 in
/-- R114, R116, R120: an installed register name, `push`, `.fill`, `.cstr`, `.def` and `lwi` of its label. -/
theorem test_assemble_text :
    assembleText ".ralias r7 sp\npush sp r3\n.fill 0b11 -1\n.cstr \"Hi\"\nx: .def 9\nlwi r2 &x".toList =
      .ok [(0, 0x67C0), (1, 0x3FFF), (2, 3), (3, 0xFFFF), (4, 0x48), (5, 0x69), (6, 0), (7, 0x7409), (8, 0x8400)] := by
  decide

/-- D24: the form `.def name value`, and R111: an operand of the wrong type is a parse error that names its token. -/
theorem test_assemble_operands : assembleText ".def x -2\nlli r2 &x".toList = .ok [(0, 0x74FE)] ∧
    assembleText "add r1 r2 \"x\"".toList = .error (.parseError "x") ∧
    assembleText "add r1 r2 7".toList = .error (.parseError "7") ∧
    assembleText "lw r1 r2".toList = .error (.operandArity "lw") := by decide

/-- R63: the lines of a memory image. -/
theorem test_read_mem : readMem ":0100\n0298 F000\n:FFFF\n1234".toList =
    .ok [(0x0100, 0x0298), (0x0101, 0xF000), (0xFFFF, 0x1234)] := by decide

/-! ## Witnesses: states and operands that meet the hypotheses of the obligations -/

/-- A legal codec that is not the default one. -/
def otherCodec : Codec where
  opMap := opMapDefault
  mathFn := mathFnDefault
  outFn := fun m => match m with | .out => 0 | .outs => 7 | .outn => 3

theorem test_witness_codec : otherCodec.Legal where
  opMap_injective := by intro a b h; cases a <;> cases b <;> first | rfl | exact absurd h (by decide)
  opMap_out := rfl
  mathFn_injective := by intro a b h; cases a <;> cases b <;> first | rfl | exact absurd h (by decide)
  outFn_injective := by intro a b h; cases a <;> cases b <;> first | rfl | exact absurd h (by decide)
  outFn_out := rfl

theorem test_witness_DecodeOfEncode : (Instr.addi .r1 .r2 31).wellFormed = true ∧ (Instr.lli .r1 (-128)).wellFormed = true ∧
    (Instr.lli .r1 0).format.hasField .rs2 = false ∧ decode 0x7334 = .ok (.lli .r1 0x34) ∧
    (0x7334 : Word) &&& (Instr.lli .r1 0x34).ignoredBits ≠ 0 ∧ decode 0x7234 = .ok (.lli .r1 0x34) ∧
    (0x7234 : Word) &&& (Instr.lli .r1 0x34).ignoredBits = 0 := by decide

theorem test_witness_IgnoredBits :
    (0x7334 : Word) &&& ~~~(Instr.lli .r1 0x34).ignoredBits = 0x7234 &&& ~~~(Instr.lli .r1 0x34).ignoredBits := by decide

theorem test_witness_EveryTableRow : (0xFFFA : Word) &&& (⟨"outn", 0xF002, 0xF007⟩ : OpcodeRow).mask = 0xF002 ∧
    (⟨"outn", 0xF002, 0xF007⟩ : OpcodeRow) ∈ opcodeTable ∧ (0xFFFA : Word).toNat ≠ 0xF000 := by decide

theorem test_witness_SignExtension : sext (fieldImm6 (toWord (-32) &&& (0x3F : Word))) = -32 ∧
    sext (fieldImm6 (toWord 31 &&& (0x3F : Word))) = 31 ∧ sext (fieldImm8 (toWord (-128) &&& (0xFF : Word))) = -128 ∧
    sext (fieldImm8 (toWord 127 &&& (0xFF : Word))) = 127 := by decide

/-- `in r0` with two inputs waiting. -/
def inR0 : State := { vec 0x2000 Regs.zero with inQ := [7, 8] }

theorem test_witness_RegisterZero : inR0.atBreakpoint = false ∧ inR0.inQ = 7 :: [8] ∧
    recognise inR0.fetchWord = .ok (.inp .r0) ∧ (nextOf (exec (.inp .r0) inR0)).map (fun t => t.reg .r0) = some 0 ∧
    (regs3 0 0xFFFF 0).get .r2 ≠ 0 ∧ (nextOf (step inR0)).map State.cycles = some 1 := by
  decide

theorem test_witness_BreakpointBits : (vec 0x0000 Regs.zero).bpAt (vec 0x0000 Regs.zero).pc = false ∧
    ∀ b ∈ ([0x0101, 0xFFFF] : Breakpoints), b ≠ (vec 0x0000 Regs.zero).pc % 65536 := by decide

theorem test_witness_DivMod : (vec 0x0656 (regs3 0x8000 0xFFFF 0)).reg .r2 ≠ 0 := by decide

theorem test_witness_ZeroDivisor : (vec 0x0656 (regs3 5 0 0)).reg .r2 = 0 ∧ (vec 0x0656 (regs3 5 0 0)).atBreakpoint = false ∧
    recognise (vec 0x0656 (regs3 5 0 0)).fetchWord = .ok (.div .r3 .r1 .r2) ∧
    recognise (vec 0x0657 (regs3 5 0 0)).fetchWord = .ok (.mod .r3 .r1 .r2) := by decide

theorem test_witness_InTakesTheHead : (vec 0x2800 Regs.zero).inQ = [] ∧ (vec 0x2800 Regs.zero).atBreakpoint = false ∧
    recognise (vec 0x2800 Regs.zero).fetchWord = .ok (.inp .r4) ∧ inR0.inQ = 7 :: [8] := by decide

/-- S7's queue. -/
theorem test_witness_InputsArrive : ({ State.reset with inQ := [10, 20, 30] } : State).inQ = 10 :: 20 :: 30 :: [] ∧
    Reg.r1 ≠ .r0 ∧ Reg.r7 ≠ .r0 ∧ Reg.r4 ≠ .r0 ∧ Reg.r1 ≠ .r7 ∧ Reg.r7 ≠ .r4 ∧ Reg.r1 ≠ .r4 := by decide

/-- Two characters and their end, wrapping at the end of memory; and the empty string. -/
theorem test_witness_OutsEmits : (∀ i : Nat, i < 2 → stringAtEnd.memRead ((stringAtEnd.reg .r3).toNat + i) ≠ 0) ∧
    stringAtEnd.memRead ((stringAtEnd.reg .r3).toNat + (2 : Nat)) = 0 ∧
    ({ stringAtEnd with regs := regs3 0 0 1 } : State).memRead (1 + (0 : Nat)) = 0 ∧ Reg.r3 ≠ .r0 := by decide

/-- A machine whose every cell holds 1. -/
def noZeroCell : State := { State.reset with mem := (List.range 65536).map (fun a => (a, (1 : Word))) }

theorem written_mapped (l : List Nat) (a : Nat) (h : a ∈ l) :
    Memory.written (l.map (fun b => (b, (1 : Word)))) a = some 1 := by
  induction l with
  | nil => simp at h
  | cons b rest ih =>
    by_cases hb : b = a
    · simp [Memory.written, hb]
    · rcases List.mem_cons.1 h with rfl | h
      · exact absurd rfl hb
      · simpa [Memory.written, hb] using ih h

/-- No cell is zero in it, so `outs` finds no end there (D11). -/
theorem test_witness_OutsHangs : ∀ a : Int, noZeroCell.memRead a ≠ 0 := by
  intro a
  have h : addrOf a ∈ List.range 65536 := List.mem_range.2 (addrOf_lt a)
  unfold State.memRead noZeroCell
  rw [written_mapped _ _ h]
  show (1 : Word) ≠ 0
  decide

theorem test_witness_HaltByExecution : (vec 0xF001 Regs.zero).atBreakpoint = false ∧
    recognise (vec 0xF001 Regs.zero).fetchWord = .ok (.outs .r0) ∧ recognise (vec 0xF002 Regs.zero).fetchWord = .ok (.outn .r0) ∧
    recognise (vec 0xF040 Regs.zero).fetchWord = .ok (.out .r0) := by decide

theorem test_witness_HaltSentinel : (vec 0xF000 Regs.zero).atBreakpoint = false ∧
    (vec 0xF000 Regs.zero).bpAt (vec 0xF000 Regs.zero).pc = false ∧ (vec 0xF000 Regs.zero).fetchWord.toNat = 0xF000 := by
  decide

/-- `sw r2, r1, 0` to the next cell. -/
def storeNext : State := vec 0x6440 (regs3 0x0101 0xF000 0)

/-- The same in the last cell, whose next cell is cell 0. -/
def storeNextAtEnd : State := { State.reset with pc := 0xFFFF, mem := [(0xFFFF, 0x6440)], regs := regs3 0 0xF000 0 }

theorem test_witness_StoreIsSeen : storeNext.atBreakpoint = false ∧ recognise storeNext.fetchWord = .ok (.sw .r2 .r1 0) ∧
    addrOf (storeNext.effAddr .r1 0) = (storeNext.pc + 1) % 65536 ∧ storeNext.bpAt (storeNext.pc + 1 : Nat) = false ∧
    (storeNext.reg .r2).toNat = 0xF000 ∧ storeNextAtEnd.atBreakpoint = false ∧
    recognise storeNextAtEnd.fetchWord = .ok (.sw .r2 .r1 0) ∧
    addrOf (storeNextAtEnd.effAddr .r1 0) = (storeNextAtEnd.pc + 1) % 65536 ∧
    storeNextAtEnd.bpAt (storeNextAtEnd.pc + 1 : Nat) = false := by decide

theorem test_witness_Lli : (Instr.lli .r1 (-128)).wellFormed = true ∧ (Instr.lli .r0 127).wellFormed = true := by decide

theorem test_witness_Lwi : Reg.r7 ≠ .r0 ∧ (0 : Int) ≤ 0xFFFF ∧ (0xFFFF : Int) < 65536 ∧
    (PseudoOp.lwi .r7 0xFFFF).expand = [.lli .r7 (-1), .lui .r7 (-1)] := by decide

/-- The last cell, with a negative r2. -/
def branchAtEnd : State := { State.reset with pc := 0xFFFF, regs := regs3 0 0x8000 0 }

/-- Both ends of the reach, the corrected offset of S4, an offset one too far, and a branch taken and one not. -/
theorem test_witness_RelocatedBranch : branchOffset 0 128 = some 127 ∧ branchOffset 0xFFFF 0xFF80 = some (-128) ∧
    branchOffset 0 0xFFF0 = some (-17) ∧ branchOffset 0 129 = none ∧ branchOffset 0xFFFF 0xFF7F = none ∧
    branchAtEnd.pc = 0xFFFF ∧ condLt (branchAtEnd.reg .r2).toInt = true ∧ condGt (branchAtEnd.reg .r2).toInt = false := by
  decide

theorem test_witness_StepRuns : (vec 0x0650 Regs.zero).atBreakpoint = false ∧
    recognise ((vec 0x0650 Regs.zero).memRead (vec 0x0650 Regs.zero).pc) = .ok (.add .r3 .r1 .r2) ∧
    recognise ((vec 0xF000 Regs.zero).memRead (vec 0xF000 Regs.zero).pc) = .ok .halt := by decide

theorem test_witness_IllegalWord : (vec 0xF003 Regs.zero).atBreakpoint = false ∧
    recognise (vec 0xF003 Regs.zero).fetchWord = .error .invalidOpcode ∧
    recognise (vec 0xFFFF Regs.zero).fetchWord = .error .invalidOpcode := by decide

/-- A breakpoint on the cell at pc. -/
def onBreakpoint (st : Status) : State := { vec 0x0000 Regs.zero with bps := [0x0100], status := st }

theorem test_witness_BreakpointStops : (onBreakpoint .halted).bpAt (onBreakpoint .halted).pc = true ∧
    (onBreakpoint .halted).status ≠ .paused ∧ (onBreakpoint .paused).status = .paused ∧
    (∃ t, iterate (onBreakpoint .paused) = .continues t) := by
  refine ⟨by decide, by decide, by decide, ⟨_, rfl⟩⟩

theorem test_witness_CycleCounter : (∃ t, step (vec 0x0000 Regs.zero) = .next t) ∧
    (∃ t, step (onBreakpoint .halted) = .next t) ∧ (∃ t, step (vec 0xF000 Regs.zero) = .next t) :=
  ⟨⟨_, rfl⟩, ⟨_, rfl⟩, ⟨_, rfl⟩⟩

theorem test_witness_Budget : (∃ t, runCall (1 : Nat) (vec 0x0000 Regs.zero) = .returned .cyclesExceeded t) ∧
    (∃ t, runCall (1 : Nat) (vec 0xF001 Regs.zero) = .returned .halted t) ∧
    (∃ t, runCall (1 : Nat) (onBreakpoint .running) = .returned .breakpoint t) ∧
    (∃ t, runCall (1 : Nat) (vec 0xF003 Regs.zero) = .returned (.fault .invalidOpcode) t) ∧
    (∃ t, runCall (0 : Nat) (vec 0xF000 Regs.zero) = .returned .cyclesExceeded t) :=
  ⟨⟨_, rfl⟩, ⟨_, rfl⟩, ⟨_, rfl⟩, ⟨_, rfl⟩, ⟨_, rfl⟩⟩

theorem test_witness_FaultsArePrecise : (∃ t, iterate (vec 0xF003 Regs.zero) = .faulted .invalidOpcode t) ∧
    (∃ t, iterate (vec 0x2800 Regs.zero) = .faulted .inputExhausted t) ∧
    (∃ t, iterate (vec 0x0656 Regs.zero) = .faulted .divideByZero t) ∧
    (vec 0xF003 Regs.zero).bpAt (vec 0xF003 Regs.zero).pc = false :=
  ⟨⟨_, rfl⟩, ⟨_, rfl⟩, ⟨_, rfl⟩, by decide⟩

theorem test_witness_SplittingARun : (vec 0x0000 Regs.zero).bps = [] ∧
    ∃ t, runCall (1 : Nat) (vec 0x0000 Regs.zero) = .returned .cyclesExceeded t := ⟨rfl, ⟨_, rfl⟩⟩

theorem test_witness_HaltedMachine : ∃ t, runCall (1 : Nat) (vec 0xF001 Regs.zero) = .returned .halted t ∧
    t.bpAt t.pc = false := ⟨_, rfl, by decide⟩

/-- A breakpoint on the cell at pc, which holds the given word. -/
def stoppedAt (w : Word) : State := { vec w Regs.zero with bps := [0x0100] }

/-- A stop before an instruction that completes, before the sentinel, and before a word that is none. -/
theorem test_witness_BreakpointOnce :
    (∃ t v u, runCall (1 : Nat) (stoppedAt 0x0000) = .returned .breakpoint t ∧
      recognise t.fetchWord = .ok (.add .r0 .r0 .r0) ∧
      exec (.add .r0 .r0 .r0) { t with status := .running, snapshot := t.regs } = .next v ∧ v.status = .running ∧
      runCall ((0 : Nat) + 1) t = .returned .cyclesExceeded u) ∧
    (∃ t u, runCall (1 : Nat) (stoppedAt 0xF000) = .returned .breakpoint t ∧
      runCall ((0 : Nat) + 1) t = .returned .halted u) ∧
    (∃ t u, runCall (1 : Nat) (stoppedAt 0xF003) = .returned .breakpoint t ∧
      recognise t.fetchWord = .error .invalidOpcode ∧
      runCall ((0 : Nat) + 1) t = .returned (.fault .invalidOpcode) u) :=
  ⟨⟨_, _, _, rfl, rfl, rfl, rfl, rfl⟩, ⟨_, _, rfl, rfl⟩, ⟨_, _, rfl, rfl, rfl⟩⟩

/-- A machine just powered on, its registers unspecified (R292): here 5, 6 and 7. -/
theorem test_witness_Reset : ({ State.reset with regs := regs3 5 6 7, pc := 9, status := .paused } : State).poweredOn ∧
    ∃ t, perform (.reset [1, 2]) { State.reset with regs := regs3 5 6 7 } = .done t := ⟨⟨rfl, rfl⟩, ⟨_, rfl⟩⟩

theorem vec_inv (w : Word) (regs : Regs) : (vec w regs).Inv :=
  ⟨by show 0x0100 < 65536; decide, ⟨by simp [vec], by simp [vec, config]⟩, ⟨by simp [vec, State.reset], by simp [vec, State.reset]⟩,
    by simp [vec, State.reset]⟩

theorem test_witness_StepKeepsInv : (vec 0x6443 (regs3 0x0200 0xBEEF 0)).Inv ∧
    ∃ t, step (vec 0x6443 (regs3 0x0200 0xBEEF 0)) = .next t := ⟨vec_inv _ _, ⟨_, rfl⟩⟩

theorem test_witness_HostSessions : (vec 0x6443 Regs.zero).Inv ∧
    ∃ t, (session [.setBreakpoint (-1), .writeCell 65536 7, .run 1] (vec 0x6443 Regs.zero)).leaves t :=
  ⟨vec_inv _ _, ⟨_, rfl⟩⟩

/-- A next state of an instruction that stores nothing, of `in`, of an output and of a halt. -/
theorem test_witness_frames : (∃ t, exec (.add .r1 .r2 .r3) (vec 0x0000 Regs.zero) = .next t) ∧
    (∃ t, exec (.inp .r4) inR0 = .next t) ∧ (∃ t, exec (.out .r3) inR0 = .next t) ∧
    (∃ t, exec (.outn .r0) inR0 = .next t) := ⟨⟨_, rfl⟩, ⟨_, rfl⟩, ⟨_, rfl⟩, ⟨_, rfl⟩⟩

end Sys2Proof.Tests
end

section
/-! The default parameters are legal. Each default map is injective because the decoder's own lookup (R89) undoes it:
the converse, for the defaults, of `Codec.groupOf_opMap`, `Codec.mathOf_mathFn` and `Codec.outOf_outFn`. -/

namespace Sys2Proof

/-- A map with a partial lookup that undoes it is injective. -/
theorem injective_of_lookup {α β : Type} {f : α → β} (lookup : β → Option α)
    (undoes : ∀ a, lookup (f a) = some a) : Function.Injective f := by
  intro a b hab
  have hsome : some a = some b := by rw [← undoes a, hab, undoes b]
  exact Option.some.inj hsome

/-- R89, D1: each default opcode number is looked up as the group it stands for. -/
theorem config_groupOf_opMap (g : OpGroup) : config.codec.groupOf (config.codec.opMap g) = some g := by
  cases g <;> rfl

/-- R89, D2: each default math sub-function is looked up as its mnemonic. -/
theorem config_mathOf_mathFn (m : MathOp) : config.codec.mathOf (config.codec.mathFn m) = some m := by
  cases m <;> rfl

/-- R89, D3: each default out-family selector is looked up as its mnemonic. -/
theorem config_outOf_outFn (m : OutOp) : config.codec.outOf (config.codec.outFn m) = some m := by
  cases m <;> rfl

/-- D1 to D3; the two `out` entries are the ones `0xF000` fixes. -/
theorem config_codec_legal : config.codec.Legal where
  opMap_injective := injective_of_lookup config.codec.groupOf config_groupOf_opMap
  opMap_out := rfl
  mathFn_injective := injective_of_lookup config.codec.mathOf config_mathOf_mathFn
  outFn_injective := injective_of_lookup config.codec.outOf config_outOf_outFn
  outFn_out := rfl

/-- Settles O9: the codec is legal, and `MEMLEN` is 65536 itself, which divides 65536. -/
theorem defaultParametersAreLegal : Obligations.DefaultParametersAreLegal where
  codec_legal := config_codec_legal
  memLen_divides := dvd_refl 65536

end Sys2Proof
end

section
/-! What one instruction can do, said once: every next state an execute rule answers is one of seven shared endings.
The frame of the whole instruction set (R30, R32 to R34, R37) and the invariant (R24, R29, R34) follow from it. -/

namespace Sys2Proof.Machine

/-! ## The endings of an instruction -/

/-- How the instruction `i` gets from `s` to the next state: one constructor for each shared ending of
Machine/Ops.lean and of the family files. `exec_effect` ties it to `exec`. -/
inductive Effect (i : Instr) (s : State) : State → Prop where
  /-- a computing or loading instruction wrote a register and went on (R25) -/
  | wroteBack (rd : Reg) (v : Word) : Effect i s (s.setReg rd v).advance
  /-- `in` took the head of the queue (R185) -/
  | tookInput (rd : Reg) (v : Word) (rest : List Word) (isIn : i = .inp rd) (waiting : s.inQ = v :: rest) :
      Effect i s (s.popInput.setReg rd v).advance
  /-- `jalr` linked and jumped (R180) -/
  | linked (rs1 : Reg) (v : Word) (target : Int) : Effect i s ((s.setReg rs1 v).goto target)
  /-- `sw` stored one Word (R212) -/
  | stored (a : Int) (v : Word) (isSw : ∃ rd rs1 imm, i = .sw rd rs1 imm) : Effect i s (s.memWrite a v).advance
  /-- a branch, taken or not, moved pc (R230) -/
  | moved (target : Int) : Effect i s (s.goto target)
  /-- the out family appended one event (R186) -/
  | emitted (rd : Reg) (e : OutEvent) (isOut : i = .out rd ∨ i = .outs rd ∨ i = .outn rd) (nonzero : rd ≠ .r0)
      (wellFormed : e.wellFormed) : Effect i s (s.emit e).advance
  /-- the halt convention or the sentinel set the status (R135, R186) -/
  | halted (isHalt : i ∈ [Instr.out .r0, .outs .r0, .outn .r0, .halt]) : Effect i s (s.setStatus .halted)

variable {i : Instr} {s t : State}

theorem effect_of_writeBack {rd : Reg} {v : Word} (h : writeBack s rd v = .next t) : Effect i s t := by
  rw [writeBack_next h]
  exact .wroteBack rd v

theorem effect_of_writeBackOrRaise {rd : Reg} {r : Except ExecError Word} (h : writeBackOrRaise s rd r = .next t) :
    Effect i s t := by
  rcases writeBackOrRaise_cases s rd r with ⟨v, rfl, _⟩ | ⟨e, rfl, _⟩
  · exact effect_of_writeBack h
  · cases h

/-- A branch that is not taken goes to pc + 1 (R230). -/
theorem effect_of_branchIf {taken : Bool} {imm : Int} (h : branchIf taken imm s = .next t) : Effect i s t := by
  rcases branchIf_next h with ⟨_, rfl⟩ | ⟨_, rfl⟩
  · exact .moved _
  · exact .moved (s.pc + 1)

theorem effect_of_haltHere (isHalt : i ∈ [Instr.out .r0, .outs .r0, .outn .r0, .halt]) (h : haltHere s = .next t) :
    Effect i s t := by
  rw [haltHere_next h]
  exact .halted isHalt

theorem effect_of_execIn {rd : Reg} (h : execIn rd s = .next t) : Effect (.inp rd) s t := by
  rcases execIn_cases rd s with ⟨v, rest, hq, hx⟩ | ⟨_, hx⟩ <;> rw [hx] at h <;> cases h
  exact .tookInput rd v rest rfl hq

/-- `out` and `outn`: the halt convention tests the register's number, else one event is appended (R186). -/
theorem effect_of_haltOrEmit {rd : Reg} {e : OutEvent} (isOut : i = .out rd ∨ i = .outs rd ∨ i = .outn rd)
    (h : (if rd = .r0 then haltHere s else emitAndAdvance s e) = .next t) (wellFormed : e.wellFormed) :
    Effect i s t := by
  split at h
  case isTrue hr =>
    subst hr
    exact effect_of_haltHere (by rcases isOut with rfl | rfl | rfl <;> simp) h
  case isFalse hr =>
    rw [emitAndAdvance_next h]
    exact .emitted rd e isOut hr wellFormed

/-- The string of an `outs` ends before the first zero cell, so its event is well formed (R34, R188). -/
theorem effect_of_execOuts {rd : Reg} (h : execOuts rd s = .next t) : Effect (.outs rd) s t := by
  rcases execOuts_cases rd s with ⟨rfl, hx⟩ | ⟨hr, ws, hws, hx⟩ | ⟨_, _, hx⟩ <;> rw [hx] at h <;> cases h
  · exact .halted (by simp)
  · exact .emitted rd (.str ws) (.inr (.inl rfl)) hr (State.scanString_nonzero hws)

/-- Every next state of an instruction is one of the endings. -/
theorem exec_effect (h : exec i s = .next t) : Effect i s t := by
  cases i with
  | add | sub | and | or | not | mul | addi | shf | lw | lli | lui => exact effect_of_writeBack h
  | div | mod => exact effect_of_writeBackOrRaise h
  | beq | bne | bgt | bge | blt | ble => exact effect_of_branchIf h
  | jalr rd rs1 => cases h; exact .linked rs1 _ _
  | inp rd => exact effect_of_execIn h
  | sw rd rs1 imm => cases h; exact .stored _ _ ⟨rd, rs1, imm, rfl⟩
  | out rd => exact effect_of_haltOrEmit (.inl rfl) h trivial
  | outs rd => exact effect_of_execOuts h
  | outn rd => exact effect_of_haltOrEmit (.inr (.inr rfl)) h trivial
  | halt => exact effect_of_haltHere (by simp) h

/-! ## The frame of the whole instruction set -/

/-- Counting is the loop's, not the instruction's (R136). -/
theorem exec_cycles (h : exec i s = .next t) : t.cycles = s.cycles := by
  cases exec_effect h <;> rfl

/-- No instruction writes the snapshot (R37 c). -/
theorem exec_snapshot (h : exec i s = .next t) : t.snapshot = s.snapshot := by
  cases exec_effect h <;> rfl

/-- Only `in` changes the input queue, taking its head (R33). -/
theorem exec_inQ (h : exec i s = .next t) : t.inQ = s.inQ ∨ ∃ rd v, i = .inp rd ∧ s.inQ = v :: t.inQ := by
  cases exec_effect h with
  | tookInput rd v rest isIn waiting => exact .inr ⟨rd, v, isIn, by simp [waiting]⟩
  | wroteBack | linked | stored | moved | emitted | halted => exact .inl rfl

/-- Only the out family changes the output, by one event at its end (R34). -/
theorem exec_out (h : exec i s = .next t) :
    t.out = s.out ∨ ∃ rd e, (i = .out rd ∨ i = .outs rd ∨ i = .outn rd) ∧ rd ≠ .r0 ∧ t.out = s.out ++ [e] := by
  cases exec_effect h with
  | emitted rd e isOut nonzero _ => exact .inr ⟨rd, e, isOut, nonzero, rfl⟩
  | wroteBack | tookInput | linked | stored | moved | halted => exact .inl rfl

/-- Only the halt convention and the sentinel change the status (R30). -/
theorem exec_status (h : exec i s = .next t) :
    t.status = s.status ∨ (t.status = .halted ∧ i ∈ [Instr.out .r0, .outs .r0, .outn .r0, .halt]) := by
  cases exec_effect h with
  | halted isHalt => exact .inr ⟨rfl, isHalt⟩
  | wroteBack | tookInput | linked | stored | moved | emitted => exact .inl rfl

/-- Settles O41: one field at a time, from the endings of an instruction. -/
theorem queuesAndStatusHaveOneWriterEach : Obligations.QueuesAndStatusHaveOneWriterEach :=
  fun _ _ _ h => ⟨exec_inQ h, exec_out h, exec_status h, exec_cycles h, exec_snapshot h⟩

end Sys2Proof.Machine
end

section
/-! The invariant of the machine's data (R24, R26, R29, R34): each update of the state keeps it, so each ending of an
instruction does, so a step does. -/

namespace Sys2Proof.Machine

/-! ## The updates that keep the invariant -/

section
variable {s : State} (inv : s.Inv)
include inv

theorem State.Inv.setReg (r : Reg) (v : Word) : (s.setReg r v).Inv := { inv with }

theorem State.Inv.goto (n : Int) : (s.goto n).Inv := { inv with pc_inRange := addrOf_lt n }

theorem State.Inv.advance : s.advance.Inv := { inv with pc_inRange := s.pcNext_lt }

theorem State.Inv.memWrite (a : Int) (v : Word) : (s.memWrite a v).Inv :=
  { inv with mem_wf := Memory.store_wf inv.mem_wf (addrOf_lt a) v }

theorem State.Inv.popInput : s.popInput.Inv := { inv with }

theorem State.Inv.emit {e : OutEvent} (he : e.wellFormed) : (s.emit e).Inv :=
  { inv with out_wf := List.forall_mem_append.2 ⟨inv.out_wf, List.forall_mem_singleton.2 he⟩ }

theorem State.Inv.setStatus (st : Status) : (s.setStatus st).Inv := { inv with }

theorem State.Inv.countCycle : s.countCycle.Inv := { inv with }

theorem State.Inv.takeSnapshot : s.takeSnapshot.Inv := { inv with }

/-! ## Instructions and steps -/

theorem State.Inv.begun : s.begun.Inv := (inv.setStatus .running).takeSnapshot

/-- Every instruction keeps the invariant. -/
theorem State.Inv.of_exec {i : Instr} {t : State} (h : exec i s = .next t) : t.Inv := by
  cases exec_effect h with
  | wroteBack rd v => exact (inv.setReg rd v).advance
  | tookInput rd v => exact (inv.popInput.setReg rd v).advance
  | linked rs1 v target => exact (inv.setReg rs1 v).goto target
  | stored a v => exact (inv.memWrite a v).advance
  | moved target => exact inv.goto target
  | emitted rd e _ _ wellFormed => exact (inv.emit wellFormed).advance
  | halted => exact inv.setStatus .halted

/-- A step stops at a breakpoint, or executes from the begun state and counts the cycle or halts on the sentinel. -/
theorem State.Inv.of_step {t : State} (h : step s = .next t) : t.Inv := by
  rcases step_next h with ⟨_, rfl⟩ | ⟨_, i, u, _, hu, ⟨_, rfl⟩ | ⟨_, rfl⟩⟩
  · exact inv.setStatus .paused
  · exact inv.begun.of_exec hu
  · exact (inv.begun.of_exec hu).countCycle

end

/-- Settles O53. -/
theorem stepKeepsTheInvariant : Obligations.StepKeepsTheInvariant :=
  fun _ _ inv h => inv.of_step h

/-- Settles O52: pc is 0 and all lists are empty. -/
theorem resetMeetsTheInvariant : Obligations.ResetMeetsTheInvariant where
  pc_inRange := addrOf_lt 0
  mem_wf := Memory.wf_nil
  bps_wf := Breakpoints.wf_nil
  out_wf := List.forall_mem_nil _

end Sys2Proof.Machine
end

section
/-! The cycle counter (R32, R133, R135, R136, D18): a step counts unless it stops before executing. -/

namespace Sys2Proof

/-! ## The sentinel (R91) -/

theorem eq_haltWord_iff (w : Word) : w = haltWord ↔ w.toNat = 0xF000 := BitVec.toNat_inj.symm

/-- The codec knows nothing of the sentinel: it decodes no word to `halt` (R91). -/
theorem decodeWith_ne_halt (c : Codec) (w : Word) : decodeWith c w ≠ .ok .halt := by
  unfold decodeWith
  cases c.groupOf (fieldOpcode w) with
  | none => simp
  | some g =>
    cases g with
    | math => cases c.mathOf (fieldSubfunc w) with
      | none => simp
      | some m => cases m <;> simp [mathInstr]
    | out => cases c.outOf (fieldSubfunc w) with
      | none => simp
      | some m => cases m <;> simp [outInstr]
    | _ => simp

/-- The loop finds the sentinel by comparing all 16 bits (R91, R135). -/
theorem recognise_eq_halt_iff (w : Word) : recognise w = .ok .halt ↔ w.toNat = 0xF000 := by
  rw [← eq_haltWord_iff]
  constructor
  · intro h
    by_contra hw
    unfold recognise at h
    cases hd : decode w with
    | error e => simp [hd] at h
    | ok i =>
      have hi : i = .halt := by simpa [hd, hw] using h
      exact decodeWith_ne_halt config.codec w (hi ▸ hd)
  · rintro rfl
    decide

end Sys2Proof

namespace Sys2Proof.Machine

/-- Setting the status and taking the snapshot count nothing (R134). -/
theorem exec_begun_cycles {i : Instr} {s u : State} (h : exec i s.begun = .next u) : u.cycles = s.cycles :=
  exec_cycles (s := s.begun) h

/-- The counter after a step: one more where an instruction was dispatched, as before at a breakpoint and on the
sentinel (R133, R135, R136). -/
theorem step_cycles {s t : State} (h : step s = .next t) :
    (s.atBreakpoint = true ∧ t.cycles = s.cycles) ∨
    (s.atBreakpoint = false ∧ recognise s.fetchWord = .ok .halt ∧ t.cycles = s.cycles) ∨
    (s.atBreakpoint = false ∧ recognise s.fetchWord ≠ .ok .halt ∧ t.cycles = s.cycles + 1) := by
  rcases step_next h with ⟨hb, rfl⟩ | ⟨hb, i, u, hw, hu, ⟨rfl, rfl⟩ | ⟨hi, rfl⟩⟩
  · exact .inl ⟨hb, rfl⟩
  · exact .inr (.inl ⟨hb, hw, exec_begun_cycles hu⟩)
  · exact .inr (.inr ⟨hb, by simpa [hw] using hi, congrArg (· + 1) (exec_begun_cycles hu)⟩)

/-- Settles O45. -/
theorem cycleCounterCountsDispatches : Obligations.CycleCounterCountsDispatches := by
  intro s t h
  rcases step_cycles h with ⟨hb, hc⟩ | ⟨hb, hw, hc⟩ | ⟨hb, hw, hc⟩
  · rw [if_pos (.inl hb), hc, Nat.add_zero]
  · rw [if_pos (.inr ((recognise_eq_halt_iff _).1 hw)), hc, Nat.add_zero]
  · have hword : s.fetchWord.toNat ≠ 0xF000 := mt (recognise_eq_halt_iff _).2 hw
    rw [if_neg (by simp [hb, hword]), hc]

end Sys2Proof.Machine
end

section
/-! Register 0 (R22): as a destination it discards the result and nothing else. -/

namespace Sys2Proof.Machine

/-- Any sequence of writes to register 0 leaves the state as it was. -/
theorem foldl_setReg_r0 (s : State) (ws : List Word) : ws.foldl (fun t w => t.setReg .r0 w) s = s := by
  induction ws with
  | nil => rfl
  | cons w ws ih => exact ih

/-- A computed or loaded result for register 0 is discarded; the instruction only advances. -/
theorem writeBack_r0 (s : State) (v : Word) : writeBack s .r0 v = .next s.advance := rfl

/-- Where the divide unit raises nothing, `div` and `mod` only advance. -/
theorem writeBackOrRaise_r0 (s : State) {r : Except ExecError Word} (h : ∀ e, r ≠ .error e) :
    writeBackOrRaise s .r0 r = .next s.advance := by
  cases r with
  | ok v => exact writeBack_r0 s v
  | error e => exact absurd rfl (h e)

/-- `in r0` discards the head but takes it out of the queue (R185). -/
theorem exec_inp_r0 {s : State} {v : Word} {rest : List Word} (h : s.inQ = v :: rest) :
    exec (.inp .r0) s = .next { s.advance with inQ := rest } := by
  show execIn .r0 s = _
  rcases execIn_cases .r0 s with ⟨w, rest', hq, hx⟩ | ⟨hq, _⟩
  · have htail : s.inQ.tail = rest := by rw [h, List.tail_cons]
    rw [hx, ← htail]
    rfl
  · simp [hq] at h

/-- `jalr rd, r0` jumps and links nowhere (R180). -/
theorem exec_jalr_r0 (rd : Reg) (s : State) :
    exec (.jalr rd .r0) s = .next { s with pc := (s.reg rd).toNat } := by
  rw [← addrOf_uview]
  rfl

/-- Settles O10. -/
theorem registerZeroIsImmutable : Obligations.RegisterZeroIsImmutable := by
  refine ⟨fun s ws => ⟨foldl_setReg_r0 s ws, s.reg_r0⟩, fun _ _ t _ => t.reg_r0, ?computing, ?dividing,
    fun _ _ _ => exec_inp_r0, fun s rd => exec_jalr_r0 rd s, ?counting⟩
  case computing =>
    intro s a b imm
    simp only [List.forall_mem_cons, List.not_mem_nil, false_implies, implies_true, and_true]
    refine ⟨?_, ?_, ?_, ?_, ?_, ?_, ?_, ?_, ?_, ?_, ?_⟩ <;> exact writeBack_r0 s _
  case dividing =>
    intro s a b hb
    exact ⟨writeBackOrRaise_r0 s fun _ he => hb (aluDiv_error he).2,
      writeBackOrRaise_r0 s fun _ he => hb (aluMod_error he).2⟩
  case counting =>
    intro s t i hb hw hi h
    rcases step_cycles h with ⟨hb', _⟩ | ⟨_, hw', _⟩ | ⟨_, _, hc⟩
    · simp [hb] at hb'
    · exact absurd (by simpa [hw] using hw') hi
    · exact hc

end Sys2Proof.Machine
end

section
/-! Breakpoint bits, counter and snapshot are hidden from programs (R35, R37): every read an instruction makes, and
every ending, commutes with replacing them. -/

namespace Sys2Proof.Machine

variable (s : State) (l : Breakpoints) (n : Nat) (g : Regs)

@[simp] theorem State.withHidden_reg (r : Reg) : (s.withHidden l n g).reg r = s.reg r := rfl
@[simp] theorem State.withHidden_memRead (a : Int) : (s.withHidden l n g).memRead a = s.memRead a := rfl
@[simp] theorem State.withHidden_inQ : (s.withHidden l n g).inQ = s.inQ := rfl

/-- The string scan reads data words only (R188). -/
theorem State.withHidden_scanString (fuel a : Nat) :
    (s.withHidden l n g).scanString fuel a = s.scanString fuel a := by
  induction fuel generalizing a with
  | zero => rfl
  | succ fuel ih => simp only [State.scanString, withHidden_memRead, ih]

@[simp] theorem State.withHidden_readString (a : Int) : (s.withHidden l n g).readString a = s.readString a :=
  s.withHidden_scanString l n g _ _

theorem writeBack_withHidden (rd : Reg) (v : Word) :
    writeBack (s.withHidden l n g) rd v = mapNext (·.withHidden l n g) (writeBack s rd v) := rfl

theorem writeBackOrRaise_withHidden (rd : Reg) (r : Except ExecError Word) :
    writeBackOrRaise (s.withHidden l n g) rd r = mapNext (·.withHidden l n g) (writeBackOrRaise s rd r) := by
  cases r <;> rfl

theorem branchIf_withHidden (taken : Bool) (imm : Int) :
    branchIf taken imm (s.withHidden l n g) = mapNext (·.withHidden l n g) (branchIf taken imm s) := by
  cases taken <;> rfl

theorem emitAndAdvance_withHidden (e : OutEvent) :
    emitAndAdvance (s.withHidden l n g) e = mapNext (·.withHidden l n g) (emitAndAdvance s e) := rfl

theorem haltHere_withHidden : haltHere (s.withHidden l n g) = mapNext (·.withHidden l n g) (haltHere s) := rfl

theorem execIn_withHidden (rd : Reg) :
    execIn rd (s.withHidden l n g) = mapNext (·.withHidden l n g) (execIn rd s) := by
  unfold execIn
  rw [State.withHidden_inQ]
  cases s.inQ <;> rfl

/-- The halt convention tests the register's number, which is no state (R186). -/
theorem haltOrEmit_withHidden (rd : Reg) (e : OutEvent) :
    (if rd = .r0 then haltHere (s.withHidden l n g) else emitAndAdvance (s.withHidden l n g) e) =
      mapNext (·.withHidden l n g) (if rd = .r0 then haltHere s else emitAndAdvance s e) := by
  split
  · exact haltHere_withHidden s l n g
  · exact emitAndAdvance_withHidden s l n g e

theorem execOuts_withHidden (rd : Reg) :
    execOuts rd (s.withHidden l n g) = mapNext (·.withHidden l n g) (execOuts rd s) := by
  unfold execOuts
  rw [State.withHidden_reg, State.withHidden_readString]
  split
  · exact haltHere_withHidden s l n g
  · cases s.readString (uview (s.reg rd)) with
    | none => rfl
    | some ws => exact emitAndAdvance_withHidden s l n g _

/-- Settles O13: the operands do not depend on the hidden parts, and each ending keeps them. -/
theorem programsCannotSeeHostState : Obligations.ProgramsCannotSeeHostState := by
  intro i s l n g
  cases i with
  | add | sub | and | or | not | mul | addi | shf | lw | lli | lui => exact writeBack_withHidden s l n g _ _
  | div | mod => exact writeBackOrRaise_withHidden s l n g _ _
  | beq | bne | bgt | bge | blt | ble => exact branchIf_withHidden s l n g _ _
  | jalr | sw => rfl
  | inp rd => exact execIn_withHidden s l n g rd
  | out | outn => exact haltOrEmit_withHidden s l n g _ _
  | outs rd => exact execOuts_withHidden s l n g rd
  | halt => exact haltHere_withHidden s l n g

end Sys2Proof.Machine
end

section
/-! Memory (R51 to R54, R61, R69): what a write changes, which instruction writes, and that the next fetch sees it. -/

namespace Sys2Proof.Machine

/-! ## One write -/

/-- Truncating an address to a Word first makes no difference (R51, D7). -/
theorem State.memRead_toWord (s : State) (b : Int) : s.memRead (toWord b).toNat = s.memRead b := by
  have hmod : ((toWord b).toNat : Int) = b % 65536 := uview_toWord b
  exact s.memRead_congr (by rw [hmod, Int.emod_emod])

/-- Settles O11. -/
theorem writeThenRead : Obligations.WriteThenRead := by
  intro s a b v
  have read : (s.memWrite a v).memRead b = if a % 65536 = b % 65536 then v else s.memRead b := by
    rw [State.memRead_memWrite]
    exact if_congr ((addrOf_eq_addrOf_iff b a).trans eq_comm) rfl rfl
  exact ⟨read, s.memWrite_bpAt a v b, ⟨_, rfl⟩, s.memRead_toWord b⟩

/-! ## The writers of memory -/

section
variable {i : Instr} {s t : State}

/-- No instruction changes a breakpoint bit (R28). -/
theorem exec_bps (h : exec i s = .next t) : t.bps = s.bps := by
  cases exec_effect h <;> rfl

/-- Only `sw` writes memory (R54, R61). -/
theorem exec_mem (h : exec i s = .next t) : t.mem = s.mem ∨ ∃ rd rs1 imm, i = .sw rd rs1 imm := by
  cases exec_effect h with
  | stored a v isSw => exact .inr isSw
  | wroteBack | tookInput | linked | moved | emitted | halted => exact .inl rfl

/-- Settles O40. -/
theorem onlySwWritesMemory : Obligations.OnlySwWritesMemory := by
  intro i s t h
  refine ⟨exec_bps h, fun notSw => (exec_mem h).resolve_right ?_⟩
  rintro ⟨rd, rs1, imm, isSw⟩
  exact notSw rd rs1 imm isSw

end

/-! ## Iterations away from a breakpoint -/

section
variable {s : State}

theorem State.bpAt_congr (s : State) {a b : Int} (h : addrOf a = addrOf b) : s.bpAt a = s.bpAt b := by
  simp only [State.bpAt, h]

/-- A clear bit at pc lets the iteration go on, whatever the status (R133). -/
theorem State.atBreakpoint_eq_false (h : s.bpAt s.pc = false) : s.atBreakpoint = false := by
  simp [State.atBreakpoint, h]

/-- Without a breakpoint the recognised instruction is dispatched (R134). -/
theorem iterate_eq_dispatch {i : Instr} (hb : s.atBreakpoint = false) (hw : recognise s.fetchWord = .ok i) :
    iterate s = dispatch i s.begun := by
  rcases iterate_cases s with ⟨hb', _⟩ | ⟨_, ⟨e, he⟩, _⟩ | ⟨_, j, hj, hi⟩
  · simp [hb] at hb'
  · simp [hw] at he
  · have hij : i = j := by simpa [hw] using hj
    rw [hi, hij]

/-- The sentinel halts the loop and changes the status and the snapshot only; no cycle is counted (R135). -/
theorem iterate_sentinel (hb : s.atBreakpoint = false) (hw : s.fetchWord.toNat = 0xF000) :
    iterate s = .halted (s.begun.setStatus .halted) := by
  rw [iterate_eq_dispatch hb ((recognise_eq_halt_iff _).2 hw)]
  rfl

theorem step_of_continues {t : State} (h : iterate s = .continues t) : step s = .next t := by
  rw [step, h]

/-! ## A store and the next fetch -/

/-- The state after an iteration that executed `sw rd, rs1, imm` (R134, R136, R212). -/
def State.afterSw (s : State) (rd rs1 : Reg) (imm : Int) : State :=
  (s.begun.memWrite (s.effAddr rs1 imm) (s.reg rd)).advance.countCycle

variable {rd rs1 : Reg} {imm : Int}

@[simp] theorem State.afterSw_pc : (s.afterSw rd rs1 imm).pc = s.pcNext := rfl
@[simp] theorem State.afterSw_bpAt (a : Int) : (s.afterSw rd rs1 imm).bpAt a = s.bpAt a := rfl

theorem State.afterSw_memRead (a : Int) :
    (s.afterSw rd rs1 imm).memRead a = if addrOf a = addrOf (s.effAddr rs1 imm) then s.reg rd else s.memRead a :=
  s.begun.memRead_memWrite (s.effAddr rs1 imm) a (s.reg rd)

/-- A fetched `sw` completes and the call goes on. -/
theorem iterate_sw (hb : s.atBreakpoint = false) (hw : recognise s.fetchWord = .ok (.sw rd rs1 imm)) :
    iterate s = .continues (s.afterSw rd rs1 imm) := by
  rw [iterate_eq_dispatch hb hw]
  rfl

theorem State.addrOf_pcNext (s : State) : addrOf s.pcNext = s.pcNext := addrOf_of_lt s.pcNext_lt

/-- A store to the cell at pc + 1 is the next word fetched (R69). -/
theorem State.afterSw_fetchWord (ha : addrOf (s.effAddr rs1 imm) = s.pcNext) :
    (s.afterSw rd rs1 imm).fetchWord = s.reg rd := by
  rw [State.fetchWord, afterSw_memRead, afterSw_pc, s.addrOf_pcNext, if_pos ha.symm]

/-- A clear bit on the next cell is still clear when the next iteration tests it (R133). -/
theorem State.afterSw_atBreakpoint (hn : s.bpAt (s.pc + 1 : Nat) = false) :
    (s.afterSw rd rs1 imm).atBreakpoint = false := by
  have haddr : addrOf s.pcNext = addrOf (s.pc + 1 : Nat) := by rw [s.addrOf_pcNext, s.pcNext_eq, addrOf_natCast]
  apply State.atBreakpoint_eq_false
  rw [afterSw_bpAt, afterSw_pc, s.bpAt_congr haddr, hn]

/-- A stop in the iteration after one that goes on is the answer of a run with budget 2 (R132). -/
theorem runCall_two_of_halted {t u : State} (ht : iterate s = .continues t) (hu : iterate t = .halted u) :
    runCall 2 s = .returned .halted u := by
  show runLoop 2 s = _
  rw [runLoop_succ, ht]
  show runLoop 1 t = _
  rw [runLoop_succ, hu]

/-- Settles O32: the first iteration is the store's, the second meets the stored sentinel. -/
theorem storeIsSeenByTheNextFetch : Obligations.StoreIsSeenByTheNextFetch := by
  intro s rd rs1 imm hb hw ha hn
  have hstore := iterate_sw hb hw
  have hfetch : (s.afterSw rd rs1 imm).fetchWord = s.reg rd := State.afterSw_fetchWord (ha.trans s.pcNext_eq.symm)
  refine ⟨_, step_of_continues hstore, hfetch, fun hsentinel => ?_⟩
  have hhalt := iterate_sentinel (State.afterSw_atBreakpoint hn) (hfetch ▸ hsentinel)
  exact ⟨_, runCall_two_of_halted hstore hhalt, rfl⟩

end

end Sys2Proof.Machine
end

section
/-! Words and their fields (R81 to R86): a word of each format is the sum of its fields, each field depends on its own
bits only, and the encoder writes each field at its place. -/

namespace Sys2Proof

/-! ## A word and its fields (R81 to R84) -/

/-- Format R tiles the word (R81). -/
theorem toNat_eq_fieldsR (w : Word) : w.toNat = (fieldOpcode w).toNat * 4096 + (fieldRd w).toNat * 512 +
    (fieldRs1 w).toNat * 64 + (fieldRs2 w).toNat * 8 + (fieldSubfunc w).toNat := by
  have := w.isLt
  simp only [fieldOpcode, fieldRd, fieldRs1, fieldRs2, fieldSubfunc, BitVec.extractLsb'_toNat,
    Nat.shiftRight_eq_div_pow]
  omega

/-- Format Imm6 tiles the word (R82). -/
theorem toNat_eq_fieldsImm6 (w : Word) : w.toNat = (fieldOpcode w).toNat * 4096 + (fieldRd w).toNat * 512 +
    (fieldRs1 w).toNat * 64 + (fieldImm6 w).toNat := by
  have := w.isLt
  simp only [fieldOpcode, fieldRd, fieldRs1, fieldImm6, BitVec.extractLsb'_toNat, Nat.shiftRight_eq_div_pow]
  omega

/-- Words that agree under a mask agree in every run of bits the mask keeps. -/
theorem extractLsb'_congr {w v mask : Word} (agree : w &&& mask = v &&& mask) {start len : Nat}
    (kept : mask.extractLsb' start len = BitVec.allOnes len) : w.extractLsb' start len = v.extractLsb' start len :=
  calc w.extractLsb' start len
    _ = (w &&& mask).extractLsb' start len := by rw [BitVec.extractLsb'_and, kept, BitVec.and_allOnes]
    _ = (v &&& mask).extractLsb' start len := by rw [agree]
    _ = v.extractLsb' start len := by rw [BitVec.extractLsb'_and, kept, BitVec.and_allOnes]

/-- A run of bits is 0 where the word is 0 under a mask that keeps it. -/
theorem extractLsb'_eq_zero {w mask : Word} (zero : w &&& mask = 0) {start len : Nat}
    (kept : mask.extractLsb' start len = BitVec.allOnes len) : w.extractLsb' start len = 0 := by
  have agree : w &&& mask = 0 &&& mask := zero.trans BitVec.zero_and.symm
  exact (extractLsb'_congr agree kept).trans BitVec.extractLsb'_zero

/-- Format Imm8 leaves out bit 8 (R83). -/
theorem toNat_eq_fieldsImm8 {w : Word} (bit8 : w &&& 0x0100 = 0) : w.toNat =
    (fieldOpcode w).toNat * 4096 + (fieldRd w).toNat * 512 + (fieldImm8 w).toNat := by
  have hbit : (w.extractLsb' 8 1).toNat = 0 := by
    rw [extractLsb'_eq_zero bit8 rfl]
    rfl
  have := w.isLt
  simp only [fieldOpcode, fieldRd, fieldImm8, BitVec.extractLsb'_toNat, Nat.shiftRight_eq_div_pow] at hbit ⊢
  omega

theorem fieldOpcode_and (w v : Word) : fieldOpcode (w &&& v) = fieldOpcode w &&& fieldOpcode v :=
  BitVec.extractLsb'_and

theorem fieldRd_and (w v : Word) : fieldRd (w &&& v) = fieldRd w &&& fieldRd v := BitVec.extractLsb'_and

theorem fieldRs1_and (w v : Word) : fieldRs1 (w &&& v) = fieldRs1 w &&& fieldRs1 v := BitVec.extractLsb'_and

theorem fieldRs2_and (w v : Word) : fieldRs2 (w &&& v) = fieldRs2 w &&& fieldRs2 v := BitVec.extractLsb'_and

theorem fieldSubfunc_and (w v : Word) : fieldSubfunc (w &&& v) = fieldSubfunc w &&& fieldSubfunc v :=
  BitVec.extractLsb'_and

/-! ## The encoder (R86) -/

theorem encodeR_toNat (op : BitVec 4) (rd rs1 rs2 : Reg) (f : BitVec 3) : (encodeR op rd rs1 rs2 f).toNat =
    op.toNat * 4096 + rd.toField.toNat * 512 + rs1.toField.toNat * 64 + rs2.toField.toNat * 8 + f.toNat := by
  rw [toNat_eq_fieldsR]
  simp only [fieldOpcode_encodeR, fieldRd_encodeR, fieldRs1_encodeR, fieldRs2_encodeR, fieldSubfunc_encodeR]

theorem encodeImm6_toNat (op : BitVec 4) (rd rs1 : Reg) (imm : Int) : (encodeImm6 op rd rs1 imm).toNat =
    op.toNat * 4096 + rd.toField.toNat * 512 + rs1.toField.toNat * 64 + (BitVec.ofInt 6 imm).toNat := by
  rw [toNat_eq_fieldsImm6]
  simp only [fieldOpcode_encodeImm6, fieldRd_encodeImm6, fieldRs1_encodeImm6, fieldImm6_encodeImm6]

/-- Bit 8 is written as 0 (R83, R90). -/
theorem encodeImm8_and_bit8 (op : BitVec 4) (rd : Reg) (imm : Int) : encodeImm8 op rd imm &&& 0x0100 = 0 := by
  unfold encodeImm8
  ext i hi
  interval_cases i <;> simp

theorem encodeImm8_toNat (op : BitVec 4) (rd : Reg) (imm : Int) : (encodeImm8 op rd imm).toNat =
    op.toNat * 4096 + rd.toField.toNat * 512 + (BitVec.ofInt 8 imm).toNat := by
  rw [toNat_eq_fieldsImm8 (encodeImm8_and_bit8 op rd imm)]
  simp only [fieldOpcode_encodeImm8, fieldRd_encodeImm8, fieldImm8_encodeImm8]

/-- A masked immediate is its residue (R86). -/
theorem toNat_ofInt_eq_emod (n : Nat) (imm : Int) : ((BitVec.ofInt n imm).toNat : Int) = imm % 2 ^ n := by
  rw [BitVec.toNat_ofInt, Int.toNat_of_nonneg (Int.emod_nonneg _ (by positivity))]
  push_cast
  rfl

/-- A word of format R is 0 under a mask over the fields below rd where each of them is 0 or outside the mask. -/
theorem encodeR_and_eq_zero (op : BitVec 4) (rd : Reg) {rs1 rs2 : Reg} {f : BitVec 3} {mask : Word}
    (hop : fieldOpcode mask = 0) (hrd : fieldRd mask = 0) (hrs1 : rs1 = .r0 ∨ fieldRs1 mask = 0)
    (hrs2 : rs2 = .r0 ∨ fieldRs2 mask = 0) (hf : f = 0 ∨ fieldSubfunc mask = 0) :
    encodeR op rd rs1 rs2 f &&& mask = 0 := by
  have hrs1' : rs1.toField &&& fieldRs1 mask = 0 := by rcases hrs1 with h | h <;> simp [h, Reg.toField]
  have hrs2' : rs2.toField &&& fieldRs2 mask = 0 := by rcases hrs2 with h | h <;> simp [h, Reg.toField]
  have hf' : f &&& fieldSubfunc mask = 0 := by rcases hf with h | h <;> simp [h]
  apply BitVec.eq_of_toNat_eq
  simp only [toNat_eq_fieldsR (_ &&& mask), fieldOpcode_and, fieldRd_and, fieldRs1_and, fieldRs2_and,
    fieldSubfunc_and, fieldRd_encodeR, fieldOpcode_encodeR, fieldRs1_encodeR, fieldRs2_encodeR,
    fieldSubfunc_encodeR, hop, hrd, hrs1', hrs2', hf']
  simp

/-- Fields that an instruction does not use are 0 (R86, R90). -/
theorem encode_and_ignoredBits (i : Instr) : encode i &&& i.ignoredBits = 0 := by
  cases i with
  | add | sub | and | or | mul | div | mod | addi | shf | lw | sw | halt => exact BitVec.and_zero
  | not => exact encodeR_and_eq_zero (mask := 0x0038) _ _ rfl rfl (.inr rfl) (.inl rfl) (.inr rfl)
  | jalr => exact encodeR_and_eq_zero (mask := 0x003F) _ _ rfl rfl (.inr rfl) (.inl rfl) (.inl rfl)
  | inp => exact encodeR_and_eq_zero (mask := 0x01FF) _ _ rfl rfl (.inl rfl) (.inl rfl) (.inl rfl)
  | out | outs | outn => exact encodeR_and_eq_zero (mask := 0x01F8) _ _ rfl rfl (.inl rfl) (.inl rfl) (.inr rfl)
  | lli | lui | beq | bne | bgt | bge | blt | ble => exact encodeImm8_and_bit8 _ _ _

/-- A word of format R is encoded from its fields. -/
theorem encodeR_fields (w : Word) : encodeR (fieldOpcode w) (Reg.ofField (fieldRd w)) (Reg.ofField (fieldRs1 w))
    (Reg.ofField (fieldRs2 w)) (fieldSubfunc w) = w := by
  apply BitVec.eq_of_toNat_eq
  rw [encodeR_toNat, toNat_eq_fieldsR w]
  simp only [Reg.toField_ofField]

/-- A word of format Imm6 is encoded from its fields. -/
theorem encodeImm6_fields (w : Word) : encodeImm6 (fieldOpcode w) (Reg.ofField (fieldRd w))
    (Reg.ofField (fieldRs1 w)) (sext (fieldImm6 w)) = w := by
  apply BitVec.eq_of_toNat_eq
  rw [encodeImm6_toNat, toNat_eq_fieldsImm6 w, ofInt_sext]
  simp only [Reg.toField_ofField]

/-- A word of format Imm8 with bit 8 clear is encoded from its fields. -/
theorem encodeImm8_fields {w : Word} (bit8 : w &&& 0x0100 = 0) :
    encodeImm8 (fieldOpcode w) (Reg.ofField (fieldRd w)) (sext (fieldImm8 w)) = w := by
  apply BitVec.eq_of_toNat_eq
  rw [encodeImm8_toNat, toNat_eq_fieldsImm8 bit8, ofInt_sext]
  simp only [Reg.toField_ofField]

/-- Settles O2: a word of each format is the sum of its fields. -/
theorem encodedFieldsStandAtTheirOffsets : Obligations.EncodedFieldsStandAtTheirOffsets := by
  refine ⟨encodeR_toNat, fun op rd rs1 imm => ?imm6, fun op rd imm => ?imm8, encode_and_ignoredBits, by decide⟩
  case imm6 =>
    rw [encodeImm6_toNat]
    push_cast [toNat_ofInt_eq_emod]
    norm_num
  case imm8 =>
    rw [encodeImm8_toNat]
    push_cast [toNat_ofInt_eq_emod]
    norm_num

end Sys2Proof
end

section
/-! The decoder (R88 to R93): what it can answer is said once, by the way the fields are read; that encoder and decoder
agree in both directions, and that ignored bits do not matter, follows case by case. -/

namespace Sys2Proof

/-! ## The two shared opcodes (R96, R97) -/

/-- The encoder writes a math instruction's fields; of `not` it writes no rs2 (R88). -/
theorem encodeWith_mathInstr (c : Codec) (rd rs1 rs2 : Reg) (m : MathOp) : encodeWith c (mathInstr rd rs1 rs2 m) =
    encodeR (c.opMap .math) rd rs1 (if m = .not then .r0 else rs2) (c.mathFn m) := by
  cases m <;> rfl

theorem encodeWith_outInstr (c : Codec) (rd : Reg) (m : OutOp) :
    encodeWith c (outInstr rd m) = encodeR (c.opMap .out) rd .r0 .r0 (c.outFn m) := by
  cases m <;> rfl

theorem ignoredBits_mathInstr (rd rs1 rs2 : Reg) (m : MathOp) :
    (mathInstr rd rs1 rs2 m).ignoredBits = if m = .not then 0x0038 else 0 := by
  cases m <;> rfl

theorem ignoredBits_outInstr (rd : Reg) (m : OutOp) : (outInstr rd m).ignoredBits = 0x01F8 := by cases m <;> rfl

/-- A math instruction depends on rs2 unless it is `not` (R88). -/
theorem mathInstr_rs2_congr (rd rs1 : Reg) {rs2 rs2' : Reg} {m : MathOp} (h : m ≠ .not → rs2 = rs2') :
    mathInstr rd rs1 rs2 m = mathInstr rd rs1 rs2' m := by
  by_cases hm : m = .not
  · rw [hm]; rfl
  · rw [h hm]

/-! ## The formats with an immediate (R82, R83) -/

/-- The opcode groups of format Imm6, each with the instruction it stands for (R82, R95). -/
inductive Imm6Group : OpGroup → (Reg → Reg → Int → Instr) → Prop where
  | addi : Imm6Group .addi .addi
  | shf : Imm6Group .shf .shf
  | lw : Imm6Group .lw .lw
  | sw : Imm6Group .sw .sw

/-- The opcode groups of format Imm8, each with the instruction it stands for (R83, R95). -/
inductive Imm8Group : OpGroup → (Reg → Int → Instr) → Prop where
  | lli : Imm8Group .lli .lli
  | lui : Imm8Group .lui .lui
  | beq : Imm8Group .beq .beq
  | bne : Imm8Group .bne .bne
  | bgt : Imm8Group .bgt .bgt
  | bge : Imm8Group .bge .bge
  | blt : Imm8Group .blt .blt
  | ble : Imm8Group .ble .ble

section
variable {g : OpGroup} {make : Reg → Reg → Int → Instr} (format : Imm6Group g make)
include format

theorem Imm6Group.encodeWith (c : Codec) (rd rs1 : Reg) (imm : Int) :
    encodeWith c (make rd rs1 imm) = encodeImm6 (c.opMap g) rd rs1 imm := by
  cases format <;> rfl

theorem Imm6Group.ignoredBits (rd rs1 : Reg) (imm : Int) : (make rd rs1 imm).ignoredBits = 0 := by
  cases format <;> rfl

theorem Imm6Group.wellFormed (rd rs1 : Reg) (imm : Int) : (make rd rs1 imm).wellFormed = fitsSigned 6 imm := by
  cases format <;> rfl

end

section
variable {g : OpGroup} {make : Reg → Int → Instr} (format : Imm8Group g make)
include format

theorem Imm8Group.encodeWith (c : Codec) (rd : Reg) (imm : Int) :
    encodeWith c (make rd imm) = encodeImm8 (c.opMap g) rd imm := by
  cases format <;> rfl

theorem Imm8Group.ignoredBits (rd : Reg) (imm : Int) : (make rd imm).ignoredBits = 0x0100 := by
  cases format <;> rfl

theorem Imm8Group.wellFormed (rd : Reg) (imm : Int) : (make rd imm).wellFormed = fitsSigned 8 imm := by
  cases format <;> rfl

end

/-! ## What the decoder can answer (R89) -/

/-- The instruction a word stands for under the maps `c`: one constructor for each way its fields are read.
`Decoded.of_decodeWith` and `Decoded.decodes` tie it to the decoder. -/
inductive Decoded (c : Codec) (w : Word) : Instr → Prop where
  /-- a math instruction, by its sub-function field (R96) -/
  | math (m : MathOp) (group : c.groupOf (fieldOpcode w) = some .math) (selector : c.mathOf (fieldSubfunc w) = some m) :
      Decoded c w (mathInstr (.ofField (fieldRd w)) (.ofField (fieldRs1 w)) (.ofField (fieldRs2 w)) m)
  /-- an instruction of the out family, by its sub-function field (R97) -/
  | out (m : OutOp) (group : c.groupOf (fieldOpcode w) = some .out) (selector : c.outOf (fieldSubfunc w) = some m) :
      Decoded c w (outInstr (.ofField (fieldRd w)) m)
  | jalr (group : c.groupOf (fieldOpcode w) = some .jalr) :
      Decoded c w (.jalr (.ofField (fieldRd w)) (.ofField (fieldRs1 w)))
  | inp (group : c.groupOf (fieldOpcode w) = some .inp) : Decoded c w (.inp (.ofField (fieldRd w)))
  | imm6 {g : OpGroup} {make : Reg → Reg → Int → Instr} (format : Imm6Group g make)
      (group : c.groupOf (fieldOpcode w) = some g) :
      Decoded c w (make (.ofField (fieldRd w)) (.ofField (fieldRs1 w)) (sext (fieldImm6 w)))
  | imm8 {g : OpGroup} {make : Reg → Int → Instr} (format : Imm8Group g make)
      (group : c.groupOf (fieldOpcode w) = some g) :
      Decoded c w (make (.ofField (fieldRd w)) (sext (fieldImm8 w)))

/-- The decoder answers the instruction the word stands for, or finds no group, no math mnemonic or no out-family
mnemonic (R89, R252). -/
theorem decodeWith_cases (c : Codec) (w : Word) : (∃ i, decodeWith c w = .ok i ∧ Decoded c w i) ∨
    (decodeWith c w = .error .invalidOpcode ∧ (c.groupOf (fieldOpcode w) = none ∨
      (c.groupOf (fieldOpcode w) = some .math ∧ c.mathOf (fieldSubfunc w) = none) ∨
      (c.groupOf (fieldOpcode w) = some .out ∧ c.outOf (fieldSubfunc w) = none))) := by
  unfold decodeWith
  cases hg : c.groupOf (fieldOpcode w) with
  | none => exact .inr ⟨rfl, .inl rfl⟩
  | some g =>
    cases g with
    | math =>
      cases hm : c.mathOf (fieldSubfunc w) with
      | none => exact .inr ⟨rfl, .inr (.inl ⟨rfl, rfl⟩)⟩
      | some m => exact .inl ⟨_, rfl, .math m hg hm⟩
    | out =>
      cases hm : c.outOf (fieldSubfunc w) with
      | none => exact .inr ⟨rfl, .inr (.inr ⟨rfl, rfl⟩)⟩
      | some m => exact .inl ⟨_, rfl, .out m hg hm⟩
    | jalr => exact .inl ⟨_, rfl, .jalr hg⟩
    | inp => exact .inl ⟨_, rfl, .inp hg⟩
    | addi => exact .inl ⟨_, rfl, .imm6 .addi hg⟩
    | shf => exact .inl ⟨_, rfl, .imm6 .shf hg⟩
    | lw => exact .inl ⟨_, rfl, .imm6 .lw hg⟩
    | sw => exact .inl ⟨_, rfl, .imm6 .sw hg⟩
    | lli => exact .inl ⟨_, rfl, .imm8 .lli hg⟩
    | lui => exact .inl ⟨_, rfl, .imm8 .lui hg⟩
    | beq => exact .inl ⟨_, rfl, .imm8 .beq hg⟩
    | bne => exact .inl ⟨_, rfl, .imm8 .bne hg⟩
    | bgt => exact .inl ⟨_, rfl, .imm8 .bgt hg⟩
    | bge => exact .inl ⟨_, rfl, .imm8 .bge hg⟩
    | blt => exact .inl ⟨_, rfl, .imm8 .blt hg⟩
    | ble => exact .inl ⟨_, rfl, .imm8 .ble hg⟩

section
variable {c : Codec} {w v : Word} {i : Instr}

theorem Decoded.of_decodeWith (h : decodeWith c w = .ok i) : Decoded c w i := by
  rcases decodeWith_cases c w with ⟨j, hj, decoded⟩ | ⟨he, _⟩
  · rw [hj, Except.ok.injEq] at h
    exact h ▸ decoded
  · rw [he] at h
    cases h

theorem Decoded.decodes (h : Decoded c w i) : decodeWith c w = .ok i := by
  cases h with
  | math m group selector => simp only [decodeWith, group, selector]
  | out m group selector => simp only [decodeWith, group, selector]
  | jalr group | inp group => simp only [decodeWith, group]
  | imm6 format group | imm8 format group => cases format <;> simp only [decodeWith, group]

/-! ## Decoding an encoded instruction (R93) -/

theorem decodeWith_encodeR_math (legal : c.Legal) (rd rs1 rs2 : Reg) (m : MathOp) :
    decodeWith c (encodeR (c.opMap .math) rd rs1 rs2 (c.mathFn m)) = .ok (mathInstr rd rs1 rs2 m) := by
  have decoded := Decoded.math (c := c) (w := encodeR (c.opMap .math) rd rs1 rs2 (c.mathFn m)) m
    (by simp [Codec.groupOf_opMap legal]) (by simp [Codec.mathOf_mathFn legal])
  simpa using decoded.decodes

theorem decodeWith_encodeR_out (legal : c.Legal) (rd rs1 rs2 : Reg) (m : OutOp) :
    decodeWith c (encodeR (c.opMap .out) rd rs1 rs2 (c.outFn m)) = .ok (outInstr rd m) := by
  have decoded := Decoded.out (c := c) (w := encodeR (c.opMap .out) rd rs1 rs2 (c.outFn m)) m
    (by simp [Codec.groupOf_opMap legal]) (by simp [Codec.outOf_outFn legal])
  simpa using decoded.decodes

theorem decodeWith_encodeR_jalr (legal : c.Legal) (rd rs1 rs2 : Reg) (f : BitVec 3) :
    decodeWith c (encodeR (c.opMap .jalr) rd rs1 rs2 f) = .ok (.jalr rd rs1) := by
  have decoded := Decoded.jalr (c := c) (w := encodeR (c.opMap .jalr) rd rs1 rs2 f)
    (by simp [Codec.groupOf_opMap legal])
  simpa using decoded.decodes

theorem decodeWith_encodeR_inp (legal : c.Legal) (rd rs1 rs2 : Reg) (f : BitVec 3) :
    decodeWith c (encodeR (c.opMap .inp) rd rs1 rs2 f) = .ok (.inp rd) := by
  have decoded := Decoded.inp (c := c) (w := encodeR (c.opMap .inp) rd rs1 rs2 f)
    (by simp [Codec.groupOf_opMap legal])
  simpa using decoded.decodes

theorem decodeWith_encodeImm6 (legal : c.Legal) {g : OpGroup} {make : Reg → Reg → Int → Instr}
    (format : Imm6Group g make) (rd rs1 : Reg) {imm : Int} (fits : fitsSigned 6 imm = true) :
    decodeWith c (encodeWith c (make rd rs1 imm)) = .ok (make rd rs1 imm) := by
  have decoded := Decoded.imm6 (c := c) (w := encodeImm6 (c.opMap g) rd rs1 imm) format
    (by simp [Codec.groupOf_opMap legal])
  rw [format.encodeWith]
  simpa [sext_ofInt imm fits] using decoded.decodes

theorem decodeWith_encodeImm8 (legal : c.Legal) {g : OpGroup} {make : Reg → Int → Instr}
    (format : Imm8Group g make) (rd : Reg) {imm : Int} (fits : fitsSigned 8 imm = true) :
    decodeWith c (encodeWith c (make rd imm)) = .ok (make rd imm) := by
  have decoded := Decoded.imm8 (c := c) (w := encodeImm8 (c.opMap g) rd imm) format
    (by simp [Codec.groupOf_opMap legal])
  rw [format.encodeWith]
  simpa [sext_ofInt imm fits] using decoded.decodes

/-- The round trip from the instruction (R93). -/
theorem decodeWith_encodeWith (legal : c.Legal) (fits : i.wellFormed = true) (notHalt : i ≠ .halt) :
    decodeWith c (encodeWith c i) = .ok i := by
  cases i with
  | add | sub | and | or | not | mul | div | mod => exact decodeWith_encodeR_math legal ..
  | jalr => exact decodeWith_encodeR_jalr legal ..
  | inp => exact decodeWith_encodeR_inp legal ..
  | addi => exact decodeWith_encodeImm6 legal .addi _ _ fits
  | shf => exact decodeWith_encodeImm6 legal .shf _ _ fits
  | lw => exact decodeWith_encodeImm6 legal .lw _ _ fits
  | sw => exact decodeWith_encodeImm6 legal .sw _ _ fits
  | lli => exact decodeWith_encodeImm8 legal .lli _ fits
  | lui => exact decodeWith_encodeImm8 legal .lui _ fits
  | beq => exact decodeWith_encodeImm8 legal .beq _ fits
  | bne => exact decodeWith_encodeImm8 legal .bne _ fits
  | bgt => exact decodeWith_encodeImm8 legal .bgt _ fits
  | bge => exact decodeWith_encodeImm8 legal .bge _ fits
  | blt => exact decodeWith_encodeImm8 legal .blt _ fits
  | ble => exact decodeWith_encodeImm8 legal .ble _ fits
  | out | outs | outn => exact decodeWith_encodeR_out legal ..
  | halt => exact absurd rfl notHalt

/-! ## Encoding a decoded instruction (R93) -/

/-- A number that a group is found for is that group's (R89). -/
theorem Codec.opMap_of_groupOf {op : BitVec 4} {g : OpGroup} (h : c.groupOf op = some g) : c.opMap g = op := by
  simpa using List.find?_some h

theorem Codec.mathFn_of_mathOf {f : BitVec 3} {m : MathOp} (h : c.mathOf f = some m) : c.mathFn m = f := by
  simpa using List.find?_some h

theorem Codec.outFn_of_outOf {f : BitVec 3} {m : OutOp} (h : c.outOf f = some m) : c.outFn m = f := by
  simpa using List.find?_some h

/-- The round trip from the word, for every word that is 0 in the bits its instruction ignores (R93). -/
theorem Decoded.encodeWith (h : Decoded c w i) (zero : w &&& i.ignoredBits = 0) : encodeWith c i = w := by
  cases h with
  | math m group selector =>
    have hrs2 : (if m = .not then .r0 else Reg.ofField (fieldRs2 w)) = Reg.ofField (fieldRs2 w) := by
      split
      case isTrue hm =>
        subst hm
        have : fieldRs2 w = 0 := extractLsb'_eq_zero (mask := 0x0038) zero rfl
        rw [this]
        rfl
      case isFalse => rfl
    rw [encodeWith_mathInstr, Codec.opMap_of_groupOf group, Codec.mathFn_of_mathOf selector, hrs2, encodeR_fields]
  | out m group selector =>
    rw [ignoredBits_outInstr] at zero
    have hrs1 : fieldRs1 w = 0 := extractLsb'_eq_zero zero rfl
    have hrs2 : fieldRs2 w = 0 := extractLsb'_eq_zero zero rfl
    have fields := encodeR_fields w
    rw [hrs1, hrs2] at fields
    rw [encodeWith_outInstr, Codec.opMap_of_groupOf group, Codec.outFn_of_outOf selector]
    exact fields
  | jalr group =>
    have hrs2 : fieldRs2 w = 0 := extractLsb'_eq_zero (mask := 0x003F) zero rfl
    have hf : fieldSubfunc w = 0 := extractLsb'_eq_zero (mask := 0x003F) zero rfl
    have fields := encodeR_fields w
    rw [← Codec.opMap_of_groupOf group, hrs2, hf] at fields
    exact fields
  | inp group =>
    have hrs1 : fieldRs1 w = 0 := extractLsb'_eq_zero (mask := 0x01FF) zero rfl
    have hrs2 : fieldRs2 w = 0 := extractLsb'_eq_zero (mask := 0x01FF) zero rfl
    have hf : fieldSubfunc w = 0 := extractLsb'_eq_zero (mask := 0x01FF) zero rfl
    have fields := encodeR_fields w
    rw [← Codec.opMap_of_groupOf group, hrs1, hrs2, hf] at fields
    exact fields
  | imm6 format group => rw [format.encodeWith, Codec.opMap_of_groupOf group, encodeImm6_fields]
  | imm8 format group =>
    rw [format.ignoredBits] at zero
    rw [format.encodeWith, Codec.opMap_of_groupOf group, encodeImm8_fields zero]

/-- Settles O1: the two round trips, with unused bits written as 0. -/
theorem decodeOfEncodeIsTheInstruction : Obligations.DecodeOfEncodeIsTheInstruction := by
  refine ⟨fun c legal i => decodeWith_encodeWith legal, fun i f w illegal => ?accessor, fun w i h => ⟨?unused, ?used⟩⟩
  case accessor => rw [accessField, illegal]; rfl
  case unused =>
    rintro rfl
    exact encode_and_ignoredBits i
  case used => exact (Decoded.of_decodeWith h).encodeWith

/-! ## The bits the decoder ignores (R90) -/

/-- Every instruction uses its opcode and its rd field (R88). -/
theorem ignoredBits_keeps (i : Instr) : fieldOpcode (~~~i.ignoredBits) = BitVec.allOnes 4 ∧
    fieldRd (~~~i.ignoredBits) = BitVec.allOnes 3 := by
  cases i <;> simp only [Instr.ignoredBits] <;> exact ⟨rfl, rfl⟩

/-- The decoder reads only bits that the instruction it answers does not ignore (R88, R90). -/
theorem Decoded.congr (h : Decoded c w i) (agree : w &&& ~~~i.ignoredBits = v &&& ~~~i.ignoredBits) :
    Decoded c v i := by
  obtain ⟨keepsOpcode, keepsRd⟩ := ignoredBits_keeps i
  have hop : fieldOpcode w = fieldOpcode v := extractLsb'_congr agree keepsOpcode
  have hrd : fieldRd w = fieldRd v := extractLsb'_congr agree keepsRd
  cases h with
  | math m group selector =>
    rw [ignoredBits_mathInstr] at agree
    have hrs1 : fieldRs1 w = fieldRs1 v := extractLsb'_congr agree (by split <;> rfl)
    have hf : fieldSubfunc w = fieldSubfunc v := extractLsb'_congr agree (by split <;> rfl)
    have hrs2 (hm : m ≠ .not) : Reg.ofField (fieldRs2 w) = Reg.ofField (fieldRs2 v) :=
      congrArg Reg.ofField (extractLsb'_congr agree (by rw [if_neg hm]; rfl))
    rw [mathInstr_rs2_congr _ _ hrs2, hrd, hrs1]
    exact .math m (hop ▸ group) (hf ▸ selector)
  | out m group selector =>
    rw [ignoredBits_outInstr] at agree
    have hf : fieldSubfunc w = fieldSubfunc v := extractLsb'_congr agree rfl
    rw [hrd]
    exact .out m (hop ▸ group) (hf ▸ selector)
  | jalr group =>
    have hrs1 : fieldRs1 w = fieldRs1 v := extractLsb'_congr (mask := ~~~0x003F) agree rfl
    rw [hrd, hrs1]
    exact .jalr (hop ▸ group)
  | inp group =>
    rw [hrd]
    exact .inp (hop ▸ group)
  | imm6 format group =>
    rw [format.ignoredBits] at agree
    have hrs1 : fieldRs1 w = fieldRs1 v := extractLsb'_congr agree rfl
    have himm : fieldImm6 w = fieldImm6 v := extractLsb'_congr agree rfl
    rw [hrd, hrs1, himm]
    exact .imm6 format (hop ▸ group)
  | imm8 format group =>
    rw [format.ignoredBits] at agree
    have himm : fieldImm8 w = fieldImm8 v := extractLsb'_congr agree rfl
    rw [hrd, himm]
    exact .imm8 format (hop ▸ group)

/-- Settles O3: the word `v` has the fields that `w` was decoded by. -/
theorem ignoredBitsDoNotMatter : Obligations.IgnoredBitsDoNotMatter :=
  fun _ _ _ h agree => ((Decoded.of_decodeWith h).congr agree).decodes

/-- A decoded immediate fits its field (R85). -/
theorem Decoded.wellFormed (h : Decoded c w i) : i.wellFormed = true := by
  cases h with
  | math m => cases m <;> rfl
  | out m => cases m <;> rfl
  | jalr | inp => rfl
  | imm6 format => rw [format.wellFormed]; exact fitsSigned_sext _
  | imm8 format => rw [format.wellFormed]; exact fitsSigned_sext _

end

end Sys2Proof
end

section
/-! The default numbers (R91, R94 to R97, D1 to D3): the illegal words, the halt sentinel, the rows of the opcode
table. -/

namespace Sys2Proof

/-! ## Illegal words (R94, R252) -/

/-- The default `OPMAP` gives every opcode number a meaning (R95, D1). -/
theorem config_groupOf_ne_none : ∀ op : BitVec 4, config.codec.groupOf op ≠ none := by decide

theorem config_groupOf_eq_out_iff : ∀ op : BitVec 4, config.codec.groupOf op = some .out ↔ op = 15 := by decide

/-- The default `MATHFN` gives every sub-function a meaning (R96, D2). -/
theorem config_mathOf_ne_none : ∀ f : BitVec 3, config.codec.mathOf f ≠ none := by decide

/-- The default `OUTFN` leaves the selectors 3 to 7 unassigned (R97, D3). -/
theorem config_outOf_eq_none_iff : ∀ f : BitVec 3, config.codec.outOf f = none ↔ 3 ≤ f.toNat := by decide

/-- The words that decode to nothing, by their fields (R94, D3). -/
theorem decode_eq_error_iff (w : Word) :
    decode w = .error .invalidOpcode ↔ fieldOpcode w = 15 ∧ 3 ≤ (fieldSubfunc w).toNat := by
  rw [← config_groupOf_eq_out_iff, ← config_outOf_eq_none_iff]
  constructor
  · intro h
    rcases decodeWith_cases config.codec w with ⟨i, hi, _⟩ | ⟨_, hgroup | ⟨_, hselector⟩ | unassigned⟩
    · simp [decode, hi] at h
    · exact absurd hgroup (config_groupOf_ne_none _)
    · exact absurd hselector (config_mathOf_ne_none _)
    · exact unassigned
  · rintro ⟨hgroup, hselector⟩
    simp only [decode, decodeWith, hgroup, hselector]

/-- Settles O4: the fields of an illegal word, as numbers. -/
theorem illegalWordsAreTheUnassignedSelectors : Obligations.IllegalWordsAreTheUnassignedSelectors := by
  refine ⟨fun w => ?illegal, fun w i h => (Decoded.of_decodeWith h).wellFormed⟩
  have hop : fieldOpcode w = 15 ↔ 0xF000 ≤ w.toNat := by
    have := w.isLt
    rw [← BitVec.toNat_inj, fieldOpcode, BitVec.extractLsb'_toNat, Nat.shiftRight_eq_div_pow]
    show w.toNat / 2 ^ 12 % 2 ^ 4 = 15 ↔ _
    omega
  rw [decode_eq_error_iff, hop, fieldSubfunc, BitVec.extractLsb'_toNat, Nat.shiftRight_zero]

/-! ## The halt sentinel (R91) -/

/-- Every other word is recognised as what it decodes to. -/
theorem recognise_eq_decode {w : Word} (h : w.toNat ≠ 0xF000) : recognise w = decode w := by
  have hw : w ≠ haltWord := mt (eq_haltWord_iff w).1 h
  unfold recognise
  simp only [if_neg hw]
  cases decode w <;> rfl

/-- Settles O5: one comparison tells the sentinel from every other word. -/
theorem haltSentinelIsOneWord : Obligations.HaltSentinelIsOneWord :=
  ⟨recognise_eq_halt_iff, fun _ => recognise_eq_decode, by decide⟩

/-! ## The rows of the opcode table (R95 to R97) -/

/-- Two rows that share a word are one row: no two rows agree under both masks. -/
theorem opcodeTable_disjoint : ∀ row ∈ opcodeTable, ∀ other ∈ opcodeTable,
    row.bits &&& other.mask = other.bits &&& row.mask → row = other := by
  decide

/-- No word is on two rows. -/
theorem row_unique {w : Word} {row other : OpcodeRow} (hrow : row ∈ opcodeTable) (hother : other ∈ opcodeTable)
    (onRow : w &&& row.mask = row.bits) (onOther : w &&& other.mask = other.bits) : row = other := by
  apply opcodeTable_disjoint row hrow other hother
  rw [← onRow, ← onOther, BitVec.and_assoc, BitVec.and_assoc, BitVec.and_comm row.mask]

/-- A row looks at the opcode and sub-function fields only, and none has opcode 15 with a selector of 3 to 7. -/
theorem opcodeTable_selector : ∀ row ∈ opcodeTable, row.mask = 0xF007 &&& row.mask ∧ ∀ f : BitVec 3,
    ((15 : BitVec 4).zeroExtend 16 <<< 12 ||| f.zeroExtend 16) &&& row.mask = row.bits → f.toNat < 3 := by
  decide

/-- A word on a row decodes (R89). -/
theorem decode_ne_error_of_row {w : Word} {row : OpcodeRow} (hrow : row ∈ opcodeTable)
    (onRow : w &&& row.mask = row.bits) : decode w ≠ .error .invalidOpcode := by
  intro illegal
  obtain ⟨hop, hselector⟩ := (decode_eq_error_iff w).1 illegal
  obtain ⟨hmask, assigned⟩ := opcodeTable_selector row hrow
  rw [hmask, ← BitVec.and_assoc, and_subfuncMask, hop] at onRow
  exact absurd (assigned _ onRow) (by omega)

/-- The word of a decoded instruction is on a row with the instruction's mnemonic. -/
theorem Decoded.onRow {w : Word} {i : Instr} (h : Decoded config.codec w i) :
    ∃ row ∈ opcodeTable, row.mnemonic = i.mnemonic ∧ w &&& row.mask = row.bits := by
  cases h with
  | math m group selector =>
    refine ⟨⟨_, _, 0xF007⟩, ?_, rfl, and_subfuncMask w⟩
    rw [← Codec.opMap_of_groupOf group, ← Codec.mathFn_of_mathOf selector]
    cases m <;> simp [opcodeTable, mathInstr, config, opMapDefault, mathFnDefault]
  | out m group selector =>
    refine ⟨⟨_, _, 0xF007⟩, ?_, rfl, and_subfuncMask w⟩
    rw [← Codec.opMap_of_groupOf group, ← Codec.outFn_of_outOf selector]
    cases m <;> simp [opcodeTable, outInstr, config, opMapDefault, outFnDefault]
  | jalr group | inp group =>
    refine ⟨⟨_, _, 0xF000⟩, ?_, rfl, and_opcodeMask w⟩
    rw [← Codec.opMap_of_groupOf group]
    simp [opcodeTable, config, opMapDefault]
  | imm6 format group | imm8 format group =>
    refine ⟨⟨_, _, 0xF000⟩, ?_, rfl, and_opcodeMask w⟩
    rw [← Codec.opMap_of_groupOf group]
    cases format <;> simp [opcodeTable, config, opMapDefault]

/-- Settles O6: a word on a row decodes to an instruction with a row, and that row is the same. -/
theorem everyTableRowIsRecognised : Obligations.EveryTableRowIsRecognised := by
  refine ⟨fun w row hrow onRow notHalt => ?_, fun w row hrow other hother => row_unique hrow hother⟩
  rcases decodeWith_cases config.codec w with ⟨i, hi, decoded⟩ | ⟨illegal, _⟩
  · obtain ⟨other, hother, hmnemonic, onOther⟩ := decoded.onRow
    rw [row_unique hrow hother onRow onOther]
    exact ⟨i, (recognise_eq_decode notHalt).trans hi, hmnemonic.symm⟩
  · exact absurd illegal (decode_ne_error_of_row hrow onRow)

/-! ## Immediates and sample words (R85, R87) -/

/-- The low bits of `W(n)`, masked or not, are the two's-complement form of n in fewer bits (R8, R9). -/
theorem extractLsb'_toWord_and (n : Int) {k : Nat} (hk : k ≤ 16) {mask : Word}
    (kept : mask.extractLsb' 0 k = BitVec.allOnes k) : (toWord n &&& mask).extractLsb' 0 k = BitVec.ofInt k n := by
  rw [BitVec.extractLsb'_and, kept, BitVec.and_allOnes]
  apply BitVec.eq_of_toNat_eq
  rw [BitVec.extractLsb'_toNat, Nat.shiftRight_zero, toWord]
  zify
  rw [toNat_ofInt_eq_emod, toNat_ofInt_eq_emod]
  exact Int.emod_emod_of_dvd n (pow_dvd_pow 2 hk)

/-- Settles O7: the masked Word holds the immediate's field, and an immediate in range is what its field extends to. -/
theorem signExtensionRoundTrips : Obligations.SignExtensionRoundTrips := by
  constructor
  · intro n hlow hhigh
    rw [fieldImm6, extractLsb'_toWord_and n (by decide) rfl]
    exact sext_ofInt n (by simp [fitsSigned]; omega)
  · intro n hlow hhigh
    rw [fieldImm8, extractLsb'_toWord_and n (by decide) rfl]
    exact sext_ofInt n (by simp [fitsSigned]; omega)

/-- Settles O8: each word is a literal, so the decoder is run on it. -/
theorem wordsFromTheEncodingTablesDecode : Obligations.WordsFromTheEncodingTablesDecode := by
  unfold Obligations.WordsFromTheEncodingTablesDecode
  decide

end Sys2Proof
end

section
/-! Relocated branches (R119, R230): the patched word is the branch with the offset, and the branch with the offset
goes to the label. -/

namespace Sys2Proof.Machine

/-- The six branches with the conditions they test (R231 to R236). -/
inductive Branch : (Reg → Int → Instr) → (Int → Bool) → Prop where
  | beq : Branch .beq condEq
  | bne : Branch .bne condNe
  | bgt : Branch .bgt condGt
  | bge : Branch .bge condGe
  | blt : Branch .blt condLt
  | ble : Branch .ble condLe

section
variable {make : Reg → Int → Instr} {cond : Int → Bool} (branch : Branch make cond)
include branch

/-- Every branch has an opcode group of format Imm8 (R88). -/
theorem Branch.imm8Group : ∃ g, Imm8Group g make := by
  cases branch with
  | beq => exact ⟨_, .beq⟩
  | bne => exact ⟨_, .bne⟩
  | bgt => exact ⟨_, .bgt⟩
  | bge => exact ⟨_, .bge⟩
  | blt => exact ⟨_, .blt⟩
  | ble => exact ⟨_, .ble⟩

theorem Branch.exec_eq (rd : Reg) (imm : Int) (s : State) :
    exec (make rd imm) s = branchIf (cond (s.reg rd).toInt) imm s := by
  rw [← sview_eq_toInt]
  cases branch <;> rfl

/-- A word that decodes to a branch is patched as one (R119). -/
theorem Branch.relocate_eq {w : Word} {rd : Reg} {imm : Int} (decodes : decode w = .ok (make rd imm))
    (address value : Int) : relocate address w value = relocateBranch address w value := by
  cases branch <;> simp only [relocate, decodes]

/-- The word that waits for its label decodes to the branch with offset 0. -/
theorem Branch.relocate_encode (rd : Reg) (address target : Int) :
    relocate address (encode (make rd 0)) target = relocateBranch address (encode (make rd 0)) target := by
  obtain ⟨g, format⟩ := branch.imm8Group
  exact branch.relocate_eq (decodeWith_encodeImm8 config_codec_legal format rd (by decide)) address target

/-- Patching the offset in is encoding the branch with it (R119). -/
theorem Branch.relocate_ok (rd : Reg) {address target offset : Int} (h : branchOffset address target = some offset) :
    relocate address (encode (make rd 0)) target = .ok (encode (make rd offset)) := by
  obtain ⟨g, format⟩ := branch.imm8Group
  rw [branch.relocate_encode]
  simp only [relocateBranch, h, encode, format.encodeWith, patchLow8_encodeImm8]

theorem Branch.relocate_error (rd : Reg) {address target : Int} (h : branchOffset address target = none) :
    relocate address (encode (make rd 0)) target = .error .relocationRange := by
  rw [branch.relocate_encode]
  simp only [relocateBranch, h]

end

/-- Setting pc changes nothing else (R230). -/
theorem State.movedTo_goto (s : State) (n : Int) : s.movedTo (s.goto n) (n % 65536) := by
  refine ⟨?_, fun _ => rfl, ⟨fun _ => rfl, fun _ => rfl⟩, ⟨rfl, rfl⟩, rfl, rfl, rfl⟩
  rw [State.goto_pc, addrOf_eq]
  omega

/-- A branch moves pc to its target or to the next cell, and changes nothing else (R230). -/
theorem branchIf_movedTo (taken : Bool) (imm : Int) (s : State) : ∃ t, branchIf taken imm s = .next t ∧
    s.movedTo t (if taken then ((s.pc : Int) + 1 + imm) % 65536 else ((s.pc : Int) + 1) % 65536) := by
  cases taken with
  | true => exact ⟨_, rfl, s.movedTo_goto _⟩
  | false => exact ⟨_, rfl, s.movedTo_goto _⟩

/-- Settles O38: the offset found leads from the next cell to the label. -/
theorem relocatedBranchReachesItsLabel : Obligations.RelocatedBranchReachesItsLabel := by
  intro address target rd s _ htarget hpc b hb
  obtain ⟨make, hmake, branch⟩ : ∃ make, b.1 = make rd ∧ Branch make b.2 := by
    revert b
    simp only [List.forall_mem_cons, List.not_mem_nil, false_implies, implies_true, and_true]
    exact ⟨⟨_, rfl, .beq⟩, ⟨_, rfl, .bne⟩, ⟨_, rfl, .bgt⟩, ⟨_, rfl, .bge⟩, ⟨_, rfl, .blt⟩, ⟨_, rfl, .ble⟩⟩
  rw [hmake]
  refine ⟨fun offset found => ⟨branch.relocate_ok rd found, ?_⟩, branch.relocate_error rd⟩
  obtain ⟨_, reaches⟩ := branchOffset_some found
  have htarget' : (target : Int) % 65536 = target := by omega
  rw [branch.exec_eq, ← htarget', ← reaches, ← hpc]
  exact branchIf_movedTo _ offset s

end Sys2Proof.Machine
end

section
/-! One iteration of the loop (R132 to R137, R141): its answer is determined by the state it finds, and a fatal error
leaves that state as it was. -/

namespace Sys2Proof.Machine

/-! ## The halt convention (R135, R186) -/

/-- An instruction that finds status Running and leaves Halted is one of the four that halt, and does nothing else. -/
theorem exec_halts {i : Instr} {s t : State} (h : exec i s = .next t) (running : s.status = .running)
    (halted : t.status = .halted) : i ∈ [Instr.out .r0, .outs .r0, .outn .r0, .halt] ∧ t = s.setStatus .halted := by
  cases exec_effect h with
  | halted isHalt => exact ⟨isHalt, rfl⟩
  | wroteBack | tookInput | linked | stored | moved | emitted => exact absurd (running.symm.trans halted) (by decide)

/-- An instruction that finds status Running and does not halt leaves it. -/
theorem exec_running {i : Instr} {s t : State} (h : exec i s = .next t) (running : s.status = .running)
    (goesOn : t.status ≠ .halted) : t.status = .running := by
  rcases exec_status h with same | ⟨halted, _⟩
  · exact same.trans running
  · exact absurd halted goesOn

/-! ## What an iteration answers (R132) -/

/-- The answer of an iteration at `s`, with what it found: one constructor for each way through steps 1 to 5.
`State.iterated` ties it to `iterate`. -/
inductive Iterated (s : State) : Iteration → Prop where
  /-- step 1 stopped the call (R133) -/
  | breakpoint (stop : s.atBreakpoint = true) : Iterated s (.breakpoint (s.setStatus .paused))
  /-- the word at pc stands for no instruction (R252) -/
  | illegal (go : s.atBreakpoint = false) {e : DecodeError} (word : recognise s.fetchWord = .error e) :
      Iterated s (.faulted .invalidOpcode (s.setStatus .running))
  /-- the word at pc is the sentinel (R135) -/
  | sentinel (go : s.atBreakpoint = false) (word : recognise s.fetchWord = .ok .halt) :
      Iterated s (.halted (s.begun.setStatus .halted))
  /-- an out-family instruction with register 0 halted (R137) -/
  | haltedByExecution (go : s.atBreakpoint = false) {i : Instr} (word : recognise s.fetchWord = .ok i)
      (isHalt : i ∈ [Instr.out .r0, .outs .r0, .outn .r0]) :
      Iterated s (.halted (s.begun.setStatus .halted).countCycle)
  /-- an instruction completed and the call goes on (R136) -/
  | completed (go : s.atBreakpoint = false) {i : Instr} (word : recognise s.fetchWord = .ok i) {u : State}
      (executes : exec i s.begun = .next u) (running : u.status = .running) : Iterated s (.continues u.countCycle)
  /-- an instruction raised an error (R141) -/
  | raised (go : s.atBreakpoint = false) {i : Instr} (word : recognise s.fetchWord = .ok i) {e : ExecError}
      (executes : exec i s.begun = .fault (.error e)) : Iterated s (.faulted e s.begun)
  /-- an `outs` found no zero cell (R188) -/
  | hung (go : s.atBreakpoint = false) : Iterated s .hangs
  /-- the model refused an instruction -/
  | refused (go : s.atBreakpoint = false) (r : Refusal) : Iterated s (.refused r)

variable {s t : State}

theorem Iterated.dispatch (go : s.atBreakpoint = false) {i : Instr} (word : recognise s.fetchWord = .ok i) :
    Iterated s (dispatch i s.begun) := by
  rcases dispatch_cases i s.begun with
      ⟨u, hx, rfl, hd⟩ | ⟨u, hx, notSentinel, hd⟩ | ⟨e, hx, hd⟩ | ⟨_, hd⟩ | ⟨r, _, hd⟩ <;> rw [hd]
  · rw [haltHere_next hx]
    exact .sentinel go word
  · rcases afterExecute_cases u with ⟨halted, ha⟩ | ⟨goesOn, ha⟩ <;> rw [ha]
    · obtain ⟨isHalt, rfl⟩ := exec_halts hx rfl halted
      exact .haltedByExecution go word (by simpa [notSentinel] using isHalt)
    · exact .completed go word hx (exec_running hx rfl goesOn)
  · exact .raised go word hx
  · exact .hung go
  · exact .refused go r

theorem State.iterated (s : State) : Iterated s (iterate s) := by
  rcases iterate_cases s with ⟨stop, hi⟩ | ⟨go, ⟨_, word⟩, hi⟩ | ⟨go, i, word, hi⟩ <;> rw [hi]
  · exact .breakpoint stop
  · exact .illegal go word
  · exact .dispatch go word

theorem Iterated.of_iterate {o : Iteration} (h : iterate s = o) : Iterated s o := h ▸ s.iterated

/-! ## What the state at pc makes an iteration answer -/

theorem iterate_eq_breakpoint (stop : s.atBreakpoint = true) : iterate s = .breakpoint (s.setStatus .paused) := by
  rw [iterate, if_pos stop]

/-- The decode error of an illegal word (R134, R252). -/
theorem iterate_eq_illegal (go : s.atBreakpoint = false) {e : DecodeError} (word : recognise s.fetchWord = .error e) :
    iterate s = .faulted .invalidOpcode (s.setStatus .running) := by
  simp [iterate, go, word]

/-- The halt by execution counts its cycle (R137). -/
theorem iterate_haltByExecution (go : s.atBreakpoint = false) {i : Instr} (word : recognise s.fetchWord = .ok i)
    (isHalt : i ∈ [Instr.out .r0, .outs .r0, .outn .r0]) :
    iterate s = .halted (s.begun.setStatus .halted).countCycle := by
  rw [iterate_eq_dispatch go word]
  simp only [List.mem_cons, List.not_mem_nil, or_false] at isHalt
  rcases isHalt with rfl | rfl | rfl <;> rfl

/-- An instruction that completes without halting goes on with one cycle counted (R136). -/
theorem iterate_completes (go : s.atBreakpoint = false) {i : Instr} (word : recognise s.fetchWord = .ok i)
    (notSentinel : i ≠ .halt) {u : State} (executes : exec i s.begun = .next u) (goesOn : u.status ≠ .halted) :
    iterate s = .continues u.countCycle := by
  rw [iterate_eq_dispatch go word]
  simp [dispatch, executes, notSentinel, afterExecute, goesOn]

theorem State.atBreakpoint_of_paused (paused : s.status = .paused) : s.atBreakpoint = false := by
  simp [State.atBreakpoint, paused]

theorem State.atBreakpoint_of_bpAt (bit : s.bpAt s.pc = true) (notPaused : s.status ≠ .paused) :
    s.atBreakpoint = true := by
  simp [State.atBreakpoint, bit, notPaused]

theorem State.bpAt_of_atBreakpoint (stop : s.atBreakpoint = true) : s.bpAt s.pc = true :=
  (Bool.and_eq_true_iff.1 stop).1

/-- Past the breakpoint test, the status an iteration finds does not matter (R134). -/
theorem iterate_setStatus {st : Status} (go : s.atBreakpoint = false) (goNow : (s.setStatus st).atBreakpoint = false) :
    iterate (s.setStatus st) = iterate s := by
  simp only [iterate, go, goNow]
  rfl

/-! ## A fatal error (R141, R256) -/

theorem State.sameData_setStatus (s : State) (st : Status) : s.sameData (s.setStatus st) :=
  ⟨rfl, rfl, rfl, rfl, rfl, rfl, rfl⟩

theorem State.sameData_begun (s : State) : s.sameData s.begun := s.sameData_setStatus .running

/-- A fatal error leaves the state as it was but for the status and the snapshot, and past the breakpoint test it
comes again. -/
theorem iterate_faulted {e : ExecError} (h : iterate s = .faulted e t) :
    s.sameData t ∧ t.status = .running ∧ (t.atBreakpoint = false → iterate t = .faulted e t) := by
  cases Iterated.of_iterate h with
  | illegal _ word => exact ⟨s.sameData_setStatus _, rfl, fun go => iterate_eq_illegal go word⟩
  | raised _ word executes =>
    refine ⟨s.sameData_begun, rfl, fun go => ?_⟩
    rw [iterate_eq_dispatch go word]
    have begunAgain : s.begun.begun = s.begun := rfl
    simp only [dispatch, begunAgain, executes]

/-- Settles O47. -/
theorem faultsArePrecise : Obligations.FaultsArePrecise := by
  intro s t e h
  obtain ⟨same, running, again⟩ := iterate_faulted h
  refine ⟨same, running, fun bit => ⟨t, again (State.atBreakpoint_eq_false ?_), same⟩⟩
  obtain ⟨_, pc, _, bps, _⟩ := same
  rw [State.bpAt, pc, bps]
  exact bit

end Sys2Proof.Machine
end

section
/-! One step as one execution (R134 to R136), and breakpoint bits away from pc, which no step sees (R147). -/

namespace Sys2Proof

/-- What the loop makes of a fetched word has its immediates in range (R85, R134). -/
theorem recognise_wellFormed {w : Word} {i : Instr} (h : recognise w = .ok i) : i.wellFormed = true := by
  by_cases sentinel : w.toNat = 0xF000
  · rw [(recognise_eq_halt_iff w).2 sentinel] at h
    cases h
    rfl
  · rw [recognise_eq_decode sentinel] at h
    exact (Decoded.of_decodeWith h).wellFormed

end Sys2Proof

namespace Sys2Proof.Machine

/-! ## One step (R134 to R136) -/

/-- What the loop adds to an execution: a cycle, but for the sentinel (R135, R136). -/
def countedUnlessHalt (i : Instr) (t : State) : State := if i = .halt then t else t.countCycle

variable {s : State}

theorem step_eq_mapNext (go : s.atBreakpoint = false) {i : Instr} (word : recognise s.fetchWord = .ok i) :
    step s = mapNext (countedUnlessHalt i) (exec i s.begun) := by
  rw [step, iterate_eq_dispatch go word]
  rcases dispatch_cases i s.begun with
      ⟨u, hx, hi, hd⟩ | ⟨u, hx, hi, hd⟩ | ⟨e, hx, hd⟩ | ⟨hx, hd⟩ | ⟨r, hx, hd⟩ <;> rw [hd, hx]
  · simp [mapNext, countedUnlessHalt, hi]
  · rcases afterExecute_cases u with ⟨_, ha⟩ | ⟨_, ha⟩ <;> simp [ha, mapNext, countedUnlessHalt, hi]
  all_goals rfl

theorem step_of_illegal (go : s.atBreakpoint = false) {e : DecodeError} (word : recognise s.fetchWord = .error e) :
    step s = .fault (.error .invalidOpcode) := by
  rw [step, iterate_eq_illegal go word]

/-- Settles O42. -/
theorem stepRunsTheRecognisedInstruction : Obligations.StepRunsTheRecognisedInstruction :=
  fun _ _ go word => ⟨recognise_wellFormed word, step_eq_mapNext go word⟩

/-! ## Breakpoint bits (R147) -/

theorem State.bpAt_setBp (s : State) (a b : Int) :
    (s.setBp a).bpAt b = (decide (a % 65536 = b % 65536) || s.bpAt b) := by
  simp only [State.bpAt, State.setBp_bps, Breakpoints.mem_insert, Bool.decide_or, addrOf_eq_addrOf_iff,
    eq_comm (a := a % 65536)]

theorem State.bpAt_clearBp (s : State) (a b : Int) :
    (s.clearBp a).bpAt b = (!decide (a % 65536 = b % 65536) && s.bpAt b) := by
  simp only [State.bpAt, State.clearBp_bps, Breakpoints.mem_remove, Bool.decide_and, decide_not, ne_eq,
    addrOf_eq_addrOf_iff, eq_comm (a := a % 65536), Bool.and_comm]

/-- The state with the breakpoint bits `l`. -/
def State.withBps (s : State) (l : Breakpoints) : State := { s with bps := l }

theorem mapNext_mapNext (f g : State → State) (r : Result) : mapNext f (mapNext g r) = mapNext (f ∘ g) r := by
  cases r <;> rfl

theorem mapNext_congr {f g : State → State} {r : Result} (h : ∀ t, r = .next t → f t = g t) :
    mapNext f r = mapNext g r := by
  cases r with
  | next t => exact congrArg _ (h t rfl)
  | fault | refused => rfl

/-- The execute rules give the same effects whatever the bits are (R147): breakpoint bits are hidden (R35), and
counter and snapshot stay as they are. -/
theorem exec_withBps (i : Instr) (s : State) (l : Breakpoints) :
    exec i (s.withBps l) = mapNext (·.withBps l) (exec i s) := by
  have hidden : exec i (s.withBps l) = mapNext (·.withHidden l s.cycles s.snapshot) (exec i s) :=
    programsCannotSeeHostState i s l s.cycles s.snapshot
  rw [hidden]
  refine mapNext_congr fun t h => ?_
  rw [← exec_cycles h, ← exec_snapshot h]
  rfl

theorem countedUnlessHalt_withBps (i : Instr) (l : Breakpoints) :
    countedUnlessHalt i ∘ (·.withBps l) = (·.withBps l) ∘ countedUnlessHalt i := by
  funext t
  by_cases hi : i = .halt
  · simp only [Function.comp_apply, countedUnlessHalt, if_pos hi]
  · simp only [Function.comp_apply, countedUnlessHalt, if_neg hi]
    rfl

/-- Bits away from pc do not change a step. -/
theorem step_withBps {l : Breakpoints} (go : s.atBreakpoint = false) (goWith : (s.withBps l).atBreakpoint = false) :
    step (s.withBps l) = mapNext (·.withBps l) (step s) := by
  cases word : recognise s.fetchWord with
  | error e => rw [step_of_illegal go word, step_of_illegal goWith word]; rfl
  | ok i =>
    calc step (s.withBps l)
      _ = mapNext (countedUnlessHalt i) (exec i (s.begun.withBps l)) := step_eq_mapNext goWith word
      _ = mapNext (countedUnlessHalt i ∘ (·.withBps l)) (exec i s.begun) := by rw [exec_withBps, mapNext_mapNext]
      _ = mapNext (·.withBps l) (step s) := by
        rw [countedUnlessHalt_withBps, ← mapNext_mapNext, step_eq_mapNext go word]

/-- Settles O12. -/
theorem breakpointBitsAreOutOfBand : Obligations.BreakpointBitsAreOutOfBand := by
  refine ⟨fun s a b => ⟨s.bpAt_setBp a b, s.bpAt_clearBp a b, ⟨_, rfl⟩, ⟨_, rfl⟩⟩, exec_withBps,
    fun s l bit away => ?_⟩
  have bitWith : (s.withBps l).bpAt s.pc = false := by
    rw [State.bpAt, addrOf_natCast, decide_eq_false_iff_not]
    exact fun mem => away _ mem rfl
  exact step_withBps (State.atBreakpoint_eq_false bit) (State.atBreakpoint_eq_false bitWith)

end Sys2Proof.Machine
end

section
/-! A call of `Run` (R132, R139 to R145): it is a number of iterations that go on, and then the budget is spent or one
iteration stops it. -/

namespace Sys2Proof.Machine

/-! ## Iterations in a row -/

/-- From `s`, `k` iterations one after the other go on, and leave `v`. -/
inductive GoesOn : Nat → State → State → Prop where
  | none (s : State) : GoesOn 0 s s
  | more {k : Nat} {s u v : State} (first : iterate s = .continues u) (rest : GoesOn k u v) : GoesOn (k + 1) s v

variable {n k : Nat} {s t u v : State}

/-- An iteration that goes on has counted one cycle, changed no breakpoint bit, and leaves status Running (R136). -/
theorem iterate_continues (h : iterate s = .continues t) :
    t.cycles = s.cycles + 1 ∧ t.bps = s.bps ∧ t.status = .running := by
  cases Iterated.of_iterate h with
  | completed _ _ executes running =>
    have sameBits := exec_bps executes
    exact ⟨congrArg (· + 1) (exec_begun_cycles executes), sameBits, running⟩

theorem GoesOn.cycles (h : GoesOn k s v) : v.cycles = s.cycles + k := by
  induction h with
  | none => rfl
  | more first _ ih =>
    obtain ⟨counted, _, _⟩ := iterate_continues first
    omega

theorem GoesOn.bps (h : GoesOn k s v) : v.bps = s.bps := by
  induction h with
  | none => rfl
  | more first _ ih =>
    obtain ⟨_, same, _⟩ := iterate_continues first
    exact ih.trans same

theorem State.Inv.of_continues (inv : s.Inv) (h : iterate s = .continues t) : t.Inv :=
  inv.of_step (step_of_continues h)

theorem State.Inv.of_goesOn (inv : s.Inv) (h : GoesOn k s v) : v.Inv := by
  induction h with
  | none => exact inv
  | more first _ ih => exact ih (inv.of_continues first)

/-- Iterations that go on spend their number from the budget. -/
theorem GoesOn.runLoop (h : GoesOn k s v) (m : Nat) : runLoop (k + m) s = runLoop m v := by
  induction h with
  | none => rw [Nat.zero_add]
  | more first _ ih => rw [Nat.succ_add, runLoop_succ, first, ← ih]

/-! ## How a call returns (R131) -/

/-- The iteration at `s` ends the call with reason `r`, leaving `t`; a spent budget is no iteration's answer. -/
def State.stops (s : State) (r : StopReason) (t : State) : Prop :=
  match r with
  | .halted => iterate s = .halted t
  | .breakpoint => iterate s = .breakpoint t
  | .fault e => iterate s = .faulted e t
  | .cyclesExceeded => False

/-- The two ways a call with budget `n` from `s` returns. `Returned.of_runLoop` ties it to `runLoop`. -/
inductive Returned (n : Nat) (s : State) : StopReason → State → Prop where
  /-- the budget is gone (R138) -/
  | spent {v : State} (ran : GoesOn n s v) : Returned n s .cyclesExceeded (v.setStatus .paused)
  /-- an iteration within the budget stopped the call -/
  | stopped {k : Nat} {v : State} (ran : GoesOn k s v) (within : k < n) {r : StopReason} {t : State}
      (stops : v.stops r t) : Returned n s r t

theorem Returned.more {r : StopReason} (first : iterate s = .continues u) (rest : Returned n u r t) :
    Returned (n + 1) s r t := by
  cases rest with
  | spent ran => exact .spent (.more first ran)
  | stopped ran within stops => exact .stopped (.more first ran) (Nat.succ_lt_succ within) stops

theorem Returned.of_runLoop {r : StopReason} (h : runLoop n s = .returned r t) : Returned n s r t := by
  induction n generalizing s with
  | zero =>
    cases h
    exact .spent (.none s)
  | succ n ih =>
    rw [runLoop_succ] at h
    cases hi : iterate s with rw [hi] at h
    | continues u => exact (ih h).more hi
    | halted | breakpoint | faulted => cases h; exact .stopped (.none s) n.succ_pos hi
    | hangs | refused => cases h

theorem Returned.of_runCall {r : StopReason} (h : runCall n s = .returned r t) : Returned n s r t :=
  Returned.of_runLoop h

/-- An iteration that stops the call is the call's whole answer. -/
theorem runLoop_of_stops {r : StopReason} (h : s.stops r t) : runLoop (n + 1) s = .returned r t := by
  rw [runLoop_succ]
  cases r with
  | halted | breakpoint | fault =>
    rw [State.stops] at h
    rw [h]
  | cyclesExceeded => exact h.elim

/-! ## What the last iteration leaves -/

theorem iterate_halted (h : iterate s = .halted t) :
    t.status = .halted ∧ s.cycles ≤ t.cycles ∧ t.cycles ≤ s.cycles + 1 := by
  cases Iterated.of_iterate h with
  | sentinel => exact ⟨rfl, Nat.le_refl _, Nat.le_succ _⟩
  | haltedByExecution => exact ⟨rfl, Nat.le_succ _, Nat.le_refl _⟩

theorem iterate_breakpoint (h : iterate s = .breakpoint t) : s.atBreakpoint = true ∧ t = s.setStatus .paused := by
  cases Iterated.of_iterate h with
  | breakpoint stop => exact ⟨stop, rfl⟩

theorem State.stops_cycles_le {r : StopReason} (h : s.stops r t) : s.cycles ≤ t.cycles := by
  cases r with
  | halted =>
    obtain ⟨_, low, _⟩ := iterate_halted h
    exact low
  | breakpoint =>
    obtain ⟨_, rfl⟩ := iterate_breakpoint h
    exact Nat.le_refl _
  | fault e =>
    obtain ⟨⟨_, _, _, _, same, _⟩, _⟩ := iterate_faulted h
    exact same.ge
  | cyclesExceeded => exact h.elim

/-! ## Halts (R135, R137, R144) -/

/-- Settles O26. -/
theorem haltByExecutionCountsACycle : Obligations.HaltByExecutionCountsACycle := by
  intro s n i go word isHalt
  exact ⟨_, runLoop_of_stops (r := .halted) (iterate_haltByExecution go word isHalt), rfl, rfl, rfl, fun _ => rfl,
    ⟨fun _ => rfl, fun _ => rfl⟩, rfl, rfl⟩

theorem State.haltedInPlace_setStatus (s : State) : s.haltedInPlace (s.setStatus .halted) :=
  ⟨rfl, rfl, fun _ => rfl, ⟨fun _ => rfl, fun _ => rfl⟩, ⟨rfl, rfl⟩, rfl, rfl⟩

/-- A call that meets the sentinel (R135). -/
theorem runLoop_sentinel (go : s.atBreakpoint = false) (word : s.fetchWord.toNat = 0xF000) (n : Nat) :
    runLoop (n + 1) s = .returned .halted (s.begun.setStatus .halted) :=
  runLoop_of_stops (r := .halted) (iterate_sentinel go word)

/-- Settles O27: a second run finds the snapshot taken, so it leaves the very state the first one left. -/
theorem haltSentinelStopsWithoutACycle : Obligations.HaltSentinelStopsWithoutACycle := by
  refine ⟨fun s => ⟨_, rfl, s.haltedInPlace_setStatus⟩,
    fun s n go word => ⟨_, runLoop_sentinel go word n, s.begun.sameData_setStatus .halted, rfl⟩,
    fun s n m bit word => ⟨_, runLoop_sentinel (State.atBreakpoint_eq_false bit) word n, ?again⟩⟩
  case again => exact runLoop_sentinel (s := s.begun.setStatus .halted) (State.atBreakpoint_eq_false bit) word m

/-- A further iteration at the halt: the word at pc is the same. -/
theorem iterate_again_of_halted (h : iterate s = .halted t) (go : t.atBreakpoint = false) :
    iterate t = .halted (t.begun.setStatus .halted) ∨ iterate t = .halted (t.begun.setStatus .halted).countCycle := by
  cases Iterated.of_iterate h with
  | sentinel _ word => exact .inl (iterate_sentinel go ((recognise_eq_halt_iff _).1 word))
  | haltedByExecution _ word isHalt => exact .inr (iterate_haltByExecution go word isHalt)

/-- Settles O49. -/
theorem haltedMachineHaltsAgain : Obligations.HaltedMachineHaltsAgain := by
  intro s t n m h bit
  cases Returned.of_runCall h with
  | stopped ran within stops =>
    rcases iterate_again_of_halted stops (State.atBreakpoint_eq_false bit) with again | again
    · exact ⟨_, runLoop_of_stops (r := .halted) again, rfl, rfl, rfl, rfl, rfl, Nat.le_succ _⟩
    · exact ⟨_, runLoop_of_stops (r := .halted) again, rfl, rfl, rfl, rfl, rfl, Nat.le_refl _⟩

/-! ## Breakpoints (R133, R142) -/

/-- Settles O44. -/
theorem breakpointStopsBeforeExecuting : Obligations.BreakpointStopsBeforeExecuting := by
  refine ⟨fun s n bit notPaused => ?stop, fun s t paused h => ?paused, fun s t h => ?later⟩
  case stop =>
    have hi := iterate_eq_breakpoint (State.atBreakpoint_of_bpAt bit notPaused)
    exact ⟨runLoop_of_stops (r := .breakpoint) hi, by rw [step, hi]; rfl⟩
  case paused =>
    cases Returned.of_runLoop (n := 1) h with
    | stopped ran within stops =>
      obtain rfl : _ = 0 := Nat.lt_one_iff.1 within
      cases ran
      obtain ⟨stop, _⟩ := iterate_breakpoint stops
      simp [State.atBreakpoint_of_paused paused] at stop
  case later =>
    obtain ⟨_, _, running⟩ := iterate_continues h
    exact running

/-- The rest of a call after an instruction that completes (R136). -/
theorem runLoop_completes (go : s.atBreakpoint = false) {i : Instr} (word : recognise s.fetchWord = .ok i)
    (notSentinel : i ≠ .halt) (executes : exec i s.begun = .next u) (goesOn : u.status ≠ .halted) (m : Nat) :
    runLoop (m + 1) s = runLoop m u.countCycle := by
  rw [runLoop_succ, iterate_completes go word notSentinel executes goesOn]

/-- A call that returns from `s` without counting a cycle, past the breakpoint test: its first iteration met the
sentinel (R135) or failed (R141). -/
def State.endsUncounted (s : State) (r : StopReason) (t : State) : Prop :=
  (r = .halted ∧ s.fetchWord.toNat = 0xF000) ∨ ∃ e, r = .fault e ∧ iterate s = .faulted e t

/-- Past the breakpoint test, a halt by execution is the one last iteration that counts its cycle (R136, R137). -/
theorem State.stops_cycles_lt {r : StopReason} (h : s.stops r t) (go : s.atBreakpoint = false) :
    s.cycles < t.cycles ∨ s.endsUncounted r t := by
  cases r with
  | halted =>
    cases Iterated.of_iterate h with
    | sentinel _ word => exact .inr (.inl ⟨rfl, (recognise_eq_halt_iff _).1 word⟩)
    | haltedByExecution => exact .inl (Nat.lt_succ_self _)
  | breakpoint =>
    obtain ⟨stop, _⟩ := iterate_breakpoint h
    simp [go] at stop
  | fault e => exact .inr (.inr ⟨e, rfl, h⟩)
  | cyclesExceeded => exact h.elim

/-- A call with budget to spare counts a cycle unless its first iteration ends it uncounted. -/
theorem Returned.cycles_lt {m : Nat} {r : StopReason} (h : Returned (m + 1) s r t) (go : s.atBreakpoint = false) :
    s.cycles < t.cycles ∨ s.endsUncounted r t := by
  cases h with
  | spent ran =>
    have counted := ran.cycles
    exact .inl (by rw [State.setStatus_cycles]; omega)
  | stopped ran within stops =>
    cases ran with
    | none => exact State.stops_cycles_lt stops go
    | more first rest =>
      obtain ⟨firstCounted, _, _⟩ := iterate_continues first
      have restCounted := rest.cycles
      have lastCounted := State.stops_cycles_le stops
      exact .inl (by omega)

/-- Settles O50: the state left at a breakpoint is Paused, so the test of step 1 lets the next run go on. -/
theorem breakpointStopsOncePerArrival : Obligations.BreakpointStopsOncePerArrival := by
  intro s t n h
  cases Returned.of_runCall h with
  | @stopped _ v ran within _ _ stops =>
    obtain ⟨stop, rfl⟩ := iterate_breakpoint stops
    have bit := State.bpAt_of_atBreakpoint stop
    have go := State.atBreakpoint_of_paused (State.setStatus_status v .paused)
    exact ⟨bit, rfl, go, fun _ => iterate_eq_dispatch go, iterate_eq_illegal go,
      fun _ _ m word notSentinel executes goesOn => runLoop_completes go word notSentinel executes goesOn m,
      fun _ _ _ hu => (Returned.of_runLoop hu).cycles_lt go⟩

/-! ## The budget (R136 to R141, R145) -/

/-- Settles O46. -/
theorem budgetIsCountedExactly : Obligations.BudgetIsCountedExactly := by
  refine ⟨fun n s t h => ?spent, fun n s t r h => ?any, fun n s hn => ?nothing⟩
  case spent =>
    cases Returned.of_runCall h with
    | spent ran => exact ⟨ran.cycles, rfl⟩
    | stopped _ _ stops => exact stops.elim
  case any =>
    cases Returned.of_runCall h with
    | spent ran =>
      have counted := ran.cycles
      rw [State.setStatus_cycles]
      exact ⟨by omega, by omega, nofun, nofun, nofun⟩
    | stopped ran within stops =>
      have counted := ran.cycles
      cases r with
      | halted =>
        obtain ⟨halted, low, high⟩ := iterate_halted stops
        exact ⟨by omega, by omega, fun _ => halted, nofun, nofun⟩
      | breakpoint =>
        obtain ⟨_, rfl⟩ := iterate_breakpoint stops
        rw [State.setStatus_cycles]
        exact ⟨by omega, by omega, nofun, fun _ => ⟨rfl, by omega⟩, nofun⟩
      | fault e =>
        obtain ⟨⟨_, _, _, _, same, _⟩, running, _⟩ := iterate_faulted stops
        exact ⟨by omega, by omega, nofun, nofun, fun _ _ => ⟨running, by omega⟩⟩
      | cyclesExceeded => exact stops.elim
  case nothing =>
    rw [runCall, Int.toNat_of_nonpos hn]
    rfl

theorem State.atBreakpoint_of_bps_nil (clear : s.bps = []) : s.atBreakpoint = false := by
  simp [State.atBreakpoint, State.bpAt, clear]

/-- With no breakpoint bit set, the status a call finds does not matter. -/
theorem runLoop_setStatus (clear : s.bps = []) (st : Status) (m : Nat) : runLoop m (s.setStatus st) = runLoop m s := by
  cases m with
  | zero => rfl
  | succ m =>
    have go := State.atBreakpoint_of_bps_nil clear
    have goNow := State.atBreakpoint_of_bps_nil (s := s.setStatus st) clear
    rw [runLoop_succ, runLoop_succ, iterate_setStatus go goNow]

/-- Settles O48: the first call leaves the state after n iterations, Paused. -/
theorem splittingARunChangesNothing : Obligations.SplittingARunChangesNothing := by
  intro s t n m clear h
  rw [runCall_natCast, runCall_natCast]
  cases Returned.of_runCall h with
  | spent ran => exact (runLoop_setStatus (ran.bps.trans clear) .paused m).trans (ran.runLoop m).symm
  | stopped _ _ stops => exact stops.elim

end Sys2Proof.Machine
end

section
/-! The host (R130, R298): every transaction keeps the invariant, so every session does. -/

namespace Sys2Proof.Machine

section
variable {s : State} (inv : s.Inv)
include inv

theorem State.Inv.setBp (a : Int) : (s.setBp a).Inv :=
  { inv with bps_wf := Breakpoints.insert_wf inv.bps_wf (addrOf_lt a) }

theorem State.Inv.clearBp (a : Int) : (s.clearBp a).Inv :=
  { inv with bps_wf := Breakpoints.remove_wf inv.bps_wf (addrOf a) }

/-- `Reset` keeps memory and breakpoint bits (R290, D16). -/
theorem State.Inv.resetCall (inputs : List Word) : (resetCall inputs s).Inv :=
  { inv with
    pc_inRange := addrOf_lt 0
    out_wf := List.forall_mem_nil _ }

/-- The last iteration of a call leaves an update of the status, the snapshot and the counter. -/
theorem State.Inv.of_stops {r : StopReason} {t : State} (h : s.stops r t) : t.Inv := by
  cases r with
  | halted =>
    cases Iterated.of_iterate h with
    | sentinel => exact inv.begun.setStatus .halted
    | haltedByExecution => exact (inv.begun.setStatus .halted).countCycle
  | breakpoint =>
    obtain ⟨_, rfl⟩ := iterate_breakpoint h
    exact inv.setStatus .paused
  | fault e =>
    cases Iterated.of_iterate h with
    | illegal => exact inv.setStatus .running
    | raised => exact inv.begun
  | cyclesExceeded => exact h.elim

theorem State.Inv.of_runLoop {n : Nat} {r : StopReason} {t : State} (h : runLoop n s = .returned r t) : t.Inv := by
  cases Returned.of_runLoop h with
  | spent ran => exact (inv.of_goesOn ran).setStatus .paused
  | stopped ran _ stops => exact (inv.of_goesOn ran).of_stops stops

theorem State.Inv.of_runCall {n : Int} {t : State} (h : (runCall n s).answer.leaves t) : t.Inv := by
  cases hr : runCall n s with rw [hr] at h
  | returned r u =>
    obtain rfl : u = t := h
    exact inv.of_runLoop hr
  | hangs | refused => exact h.elim

/-- Every transaction keeps the invariant. -/
theorem State.Inv.of_perform {c : HostCall} {t : State} (h : (perform c s).leaves t) : t.Inv := by
  cases c with
  | reset inputs => exact h ▸ inv.resetCall inputs
  | run | step => exact inv.of_runCall h
  | setBreakpoint a => exact h ▸ inv.setBp a
  | clearBreakpoint a => exact h ▸ inv.clearBp a
  | writeCell a v => exact h ▸ inv.memWrite a v

end

/-- A session's first transaction leaves the state that the rest of the session starts from (R298). -/
theorem session_cons_leaves {c : HostCall} {rest : List HostCall} {s t : State}
    (h : (session (c :: rest) s).leaves t) : ∃ u, (perform c s).leaves u ∧ (session rest u).leaves t := by
  unfold session at h
  cases hp : perform c s with rw [hp] at h
  | done u => exact ⟨u, rfl, h⟩
  | stopped r u =>
    refine ⟨u, rfl, ?_⟩
    by_cases last : rest = []
    · subst last
      exact h
    · simpa [last] using h
  | hangs | refused => exact h.elim

/-- Settles O54, by induction on the transactions. -/
theorem hostSessionsKeepTheInvariant : Obligations.HostSessionsKeepTheInvariant := by
  intro calls
  induction calls with
  | nil =>
    intro s t inv h
    exact h ▸ inv
  | cons c rest ih =>
    intro s t inv h
    obtain ⟨u, first, others⟩ := session_cons_leaves h
    exact ih u t (inv.of_perform first) others

end Sys2Proof.Machine
end

section
/-! The math group (R160 to R169): each result of the unit as an operation on Words or on their signed views, and the
one ending of the group, which writes rd, goes on, and changes nothing else. -/

namespace Sys2Proof.Machine

/-! ## The frame of a register-writing instruction (R22, R25) -/

theorem State.wrote_setReg (s : State) (rd : Reg) (v : Word) : s.wrote (s.setReg rd v) rd v := by
  refine ⟨State.reg_r0 _, fun nonzero => ?_, fun r other => ?_⟩
  · rw [State.reg_setReg, if_pos ⟨rfl, nonzero⟩]
  · rw [State.reg_setReg, if_neg fun same => other same.1]

theorem writeBack_wroteAndAdvanced (s : State) (rd : Reg) (v : Word) :
    ∃ t, writeBack s rd v = .next t ∧ s.wroteAndAdvanced t rd v :=
  ⟨_, rfl, s.wrote_setReg rd v, s.pcNext_eq, ⟨fun _ => rfl, fun _ => rfl⟩, ⟨rfl, rfl⟩, rfl, rfl, rfl⟩

/-! ## The unit's results -/

section
variable (a b : Word)

theorem aluAdd_eq : aluAdd a b = a + b := by
  rw [aluAdd, toWord, BitVec.ofInt_add]
  exact congrArg₂ (· + ·) (toWord_uview a) (toWord_uview b)

theorem aluSub_eq : aluSub a b = a - b := by
  rw [aluSub, toWord, Int.sub_eq_add_neg, BitVec.ofInt_add, BitVec.ofInt_neg, BitVec.sub_eq_add_neg]
  exact congrArg₂ (· + -·) (toWord_uview a) (toWord_uview b)

/-- The low 16 bits of the signed product are the product of the Words (R169). -/
theorem aluMul_eq : aluMul a b = a * b := by
  rw [aluMul, toWord, BitVec.ofInt_mul]
  exact congrArg₂ (· * ·) (toWord_sview a) (toWord_sview b)

/-- Subtracting from `0xFFFF` borrows nothing, so it complements each bit (R165). -/
theorem aluNot_eq : aluNot a = ~~~a := by
  rw [aluNot, toWord, Int.sub_eq_add_neg, BitVec.ofInt_add, BitVec.ofInt_neg, ← BitVec.allOnes_sub_eq_not,
    BitVec.sub_eq_add_neg]
  exact congrArg (BitVec.allOnes 16 + -·) (toWord_uview a)

/-- The remainder that goes with the quotient toward zero is core Lean's `Int.tmod` (R168). -/
theorem remainder_truncate (m n : Int) : remainder .truncate m n = m.tmod n := by
  rw [remainder, quotient_truncate, Int.mul_comm, Int.tmod_def]

variable {b} (nonzero : b ≠ 0)
include nonzero

theorem aluDiv_eq : aluDiv a b = .ok (BitVec.ofInt 16 (a.toInt.tdiv b.toInt)) := by
  rw [aluDiv, if_neg (mt (sview_eq_zero_iff b).1 nonzero), ← sview_eq_toInt, ← sview_eq_toInt, ← quotient_truncate]
  rfl

theorem aluMod_eq : aluMod a b = .ok (BitVec.ofInt 16 (a.toInt.tmod b.toInt)) := by
  rw [aluMod, if_neg (mt (sview_eq_zero_iff b).1 nonzero), ← sview_eq_toInt, ← sview_eq_toInt, ← remainder_truncate]
  rfl

end

/-! ## The truncated remainder (R169, D8) -/

theorem natAbs_tmod_lt (m : Int) {n : Int} (nonzero : n ≠ 0) : (m.tmod n).natAbs < n.natAbs := by
  rw [Int.natAbs_tmod]
  exact Nat.mod_lt _ (Int.natAbs_pos.2 nonzero)

/-- A remainder is 0 when the division is exact; else it has the dividend's sign. -/
theorem sign_tmod_of_ne_zero {m n : Int} (inexact : m.tmod n ≠ 0) : (m.tmod n).sign = m.sign := by
  rw [Int.sign_tmod, if_neg (mt Int.tmod_eq_zero_of_dvd inexact)]

/-! ## The instructions -/

section
variable (rd rs1 rs2 : Reg) (s : State)

theorem exec_add : exec (.add rd rs1 rs2) s = writeBack s rd (s.reg rs1 + s.reg rs2) :=
  congrArg (writeBack s rd) (aluAdd_eq _ _)

theorem exec_sub : exec (.sub rd rs1 rs2) s = writeBack s rd (s.reg rs1 - s.reg rs2) :=
  congrArg (writeBack s rd) (aluSub_eq _ _)

theorem exec_mul : exec (.mul rd rs1 rs2) s = writeBack s rd (s.reg rs1 * s.reg rs2) :=
  congrArg (writeBack s rd) (aluMul_eq _ _)

theorem exec_and : exec (.and rd rs1 rs2) s = writeBack s rd (s.reg rs1 &&& s.reg rs2) := rfl

theorem exec_or : exec (.or rd rs1 rs2) s = writeBack s rd (s.reg rs1 ||| s.reg rs2) := rfl

theorem exec_not : exec (.not rd rs1) s = writeBack s rd (~~~s.reg rs1) :=
  congrArg (writeBack s rd) (aluNot_eq _)

variable {rs2 s} (nonzero : s.reg rs2 ≠ 0)
include nonzero

theorem exec_div : exec (.div rd rs1 rs2) s =
    writeBack s rd (BitVec.ofInt 16 ((s.reg rs1).toInt.tdiv (s.reg rs2).toInt)) :=
  congrArg (writeBackOrRaise s rd) (aluDiv_eq _ nonzero)

theorem exec_mod : exec (.mod rd rs1 rs2) s =
    writeBack s rd (BitVec.ofInt 16 ((s.reg rs1).toInt.tmod (s.reg rs2).toInt)) :=
  congrArg (writeBackOrRaise s rd) (aluMod_eq _ nonzero)

end

/-- Settles O17: q and r are core Lean's quotient and remainder toward zero of the signed views. -/
theorem divModTruncateTowardZero : Obligations.DivModTruncateTowardZero := by
  intro rd rs1 rs2 s nonzero
  have divisor : (s.reg rs2).toInt ≠ 0 := by rwa [← sview_eq_toInt, ne_eq, sview_eq_zero_iff]
  refine ⟨_, _, (Int.tdiv_mul_add_tmod _ _).symm, natAbs_tmod_lt _ divisor, sign_tmod_of_ne_zero, ?div, ?mod⟩
  case div =>
    rw [exec_div rd rs1 nonzero]
    exact writeBack_wroteAndAdvanced s rd _
  case mod =>
    rw [exec_mod rd rs1 nonzero]
    exact writeBack_wroteAndAdvanced s rd _

/-- Settles O14. -/
theorem addSubMulWrapAround : Obligations.AddSubMulWrapAround := by
  intro rd rs1 rs2 s
  have encoded := encodeWith_mathInstr config.codec rd rs1 rs2
  rw [exec_add, exec_sub, exec_mul]
  exact ⟨writeBack_wroteAndAdvanced s rd _, writeBack_wroteAndAdvanced s rd _, writeBack_wroteAndAdvanced s rd _,
    encoded .add, encoded .sub, encoded .mul⟩

/-- Settles O15. -/
theorem andOrActBitwise : Obligations.AndOrActBitwise := by
  intro rd rs1 rs2 s
  have encoded := encodeWith_mathInstr config.codec rd rs1 rs2
  obtain ⟨t, hand, framed⟩ := writeBack_wroteAndAdvanced s rd (s.reg rs1 &&& s.reg rs2)
  obtain ⟨u, hor, framed'⟩ := writeBack_wroteAndAdvanced s rd (s.reg rs1 ||| s.reg rs2)
  rw [exec_and, exec_or]
  exact ⟨⟨t, _, hand, framed, fun _ _ => BitVec.getLsbD_and⟩, ⟨u, _, hor, framed', fun _ _ => BitVec.getLsbD_or⟩,
    encoded .and, encoded .or⟩

/-- Settles O16: below the width, each bit of the complement is the complement of the bit. -/
theorem notComplementsEveryBit : Obligations.NotComplementsEveryBit := by
  intro rd rs1 s
  obtain ⟨t, hnot, framed⟩ := writeBack_wroteAndAdvanced s rd (~~~s.reg rs1)
  rw [exec_not]
  refine ⟨t, _, hnot, framed, fun k hk => ?_⟩
  rw [BitVec.getLsbD_not, decide_eq_true hk, Bool.true_and]

end Sys2Proof.Machine
end

section
/-! Jump and link (R180): the link is the address of the next cell, and the target is the Word that rd held before the
link was written. -/

namespace Sys2Proof.Machine

/-- The pc wraps at the end of memory where a Word does, so the link is the pc after this one as a Word (D19). -/
theorem State.linkValue_eq (s : State) : s.linkValue = BitVec.ofNat 16 (s.pc + 1) := by
  rw [State.linkValue, toWord, BitVec.ofInt_natCast, s.pcNext_eq]
  exact BitVec.eq_of_toNat_eq (Nat.mod_mod _ 65536)

/-- The target is a Word, so it is an address as it stands; the right side reads it from the old state (D20). -/
theorem exec_jalr (rd rs1 : Reg) (s : State) : exec (.jalr rd rs1) s =
    .next { s.setReg rs1 (BitVec.ofNat 16 (s.pc + 1)) with pc := (s.reg rd).toNat } := by
  rw [← s.linkValue_eq, ← addrOf_uview]
  rfl

/-- Settles O19: setting pc keeps what writing the link left. -/
theorem jalrLinksAndJumps : Obligations.JalrLinksAndJumps :=
  fun rd rs1 s => ⟨_, exec_jalr rd rs1 s, rfl, s.wrote_setReg rs1 _, ⟨fun _ => rfl, fun _ => rfl⟩, ⟨rfl, rfl⟩,
    rfl, rfl, rfl⟩

end Sys2Proof.Machine
end

section
/-! Input, output and halt (R185 to R189): the queue is drained in order, an output instruction appends one event, and
the string of an `outs` is found exactly when some cell of memory is zero. -/

namespace Sys2Proof.Machine

/-! ## The string of `outs` (R188) -/

section
variable {s : State} {a : Int}

theorem State.memRead_addrOf_add (s : State) (a k : Int) : s.memRead (addrOf a + k) = s.memRead (a + k) := by
  rw [State.memRead, addrOf_addrOf_add, ← State.memRead]

/-- A read at any address is a read of one of the `MEMLEN` cells from `a` on (R51). -/
theorem State.exists_memRead_eq (s : State) (a b : Int) : ∃ k < config.memLen, s.memRead b = s.memRead (a + k) :=
  ⟨addrOf (b - a), addrOf_lt _, s.memRead_congr (by rw [addrOf_eq]; omega)⟩

theorem State.readString_some {ws : List Word} (found : s.readString a = some ws) :
    s.memRead (a + ws.length) = 0 ∧ ∀ (i : Nat) (hi : i < ws.length), ws[i] = s.memRead (a + i) ∧ ws[i] ≠ 0 := by
  obtain ⟨_, ending, cells⟩ := State.scanString_some found
  simp only [s.memRead_addrOf_add] at ending cells
  exact ⟨ending, cells⟩

/-- The scan of `MEMLEN` cells has seen every cell, so it gives up only where none is zero (D11). -/
theorem State.readString_eq_none_iff (s : State) (a : Int) : s.readString a = none ↔ ∀ b : Int, s.memRead b ≠ 0 := by
  constructor
  · intro gaveUp b
    obtain ⟨k, inMemory, same⟩ := s.exists_memRead_eq a b
    rw [same, ← s.memRead_addrOf_add]
    exact State.scanString_none gaveUp k inMemory
  · intro noZero
    cases found : s.readString a with
    | none => rfl
    | some ws => exact absurd (State.readString_some found).1 (noZero _)

/-- The string read is the one up to the first zero cell: a string that ends earlier would end in a non-zero cell, and
one that ends later would hold a zero Word. -/
theorem State.readString_eq_some {n : Nat} (nonzero : ∀ i : Nat, i < n → s.memRead (a + i) ≠ 0)
    (zero : s.memRead (a + n) = 0) :
    s.readString a = some ((List.range n).map fun i : Nat => s.memRead (a + (i : Int))) := by
  cases found : s.readString a with
  | none => exact absurd zero ((s.readString_eq_none_iff a).1 found _)
  | some ws =>
    obtain ⟨ending, cells⟩ := State.readString_some found
    have length : ws.length = n := by
      rcases Nat.lt_trichotomy ws.length n with short | same | long
      · exact absurd ending (nonzero _ short)
      · exact same
      · obtain ⟨word, wordNonzero⟩ := cells n long
        exact absurd (word.trans zero) wordNonzero
    subst length
    exact congrArg some (List.ext_getElem (by simp) fun i hi _ => by simpa using (cells i hi).1)

end

/-! ## The output family (R186 to R189) -/

/-- The common ending of the output family changes the output and pc only (R186). -/
theorem emitAndAdvance_emittedAndAdvanced (s : State) (e : OutEvent) :
    ∃ t, emitAndAdvance s e = .next t ∧ s.emittedAndAdvanced t e :=
  ⟨_, rfl, rfl, rfl, s.pcNext_eq, fun _ => rfl, ⟨fun _ => rfl, fun _ => rfl⟩, rfl, rfl, rfl⟩

section
variable {rd : Reg} {s : State} (nonzero : rd ≠ .r0)
include nonzero

theorem exec_out_of_ne_r0 : exec (.out rd) s = emitAndAdvance s (.num .out (s.reg rd)) := if_neg nonzero

theorem exec_outn_of_ne_r0 : exec (.outn rd) s = emitAndAdvance s (.num .outn (s.reg rd)) := if_neg nonzero

/-- With a register other than 0, `outs` writes the string it finds or never completes. -/
theorem exec_outs_cases_of_ne_r0 :
    (∃ ws, s.readString (uview (s.reg rd)) = some ws ∧ exec (.outs rd) s = emitAndAdvance s (.str ws)) ∨
    (s.readString (uview (s.reg rd)) = none ∧ exec (.outs rd) s = .fault .outsHang) := by
  rcases execOuts_cases rd s with ⟨isZero, _⟩ | ⟨_, written⟩ | ⟨_, hangs⟩
  · exact absurd isZero nonzero
  · exact .inl written
  · exact .inr hangs

theorem exec_outs_of_readString {ws : List Word} (found : s.readString (uview (s.reg rd)) = some ws) :
    exec (.outs rd) s = emitAndAdvance s (.str ws) := by
  rcases exec_outs_cases_of_ne_r0 (s := s) nonzero with ⟨vs, foundToo, written⟩ | ⟨gaveUp, _⟩
  · obtain rfl : ws = vs := Option.some_inj.1 (found.symm.trans foundToo)
    exact written
  · cases found.symm.trans gaveUp

theorem exec_outs_eq_hang_iff : exec (.outs rd) s = .fault .outsHang ↔ ∀ a : Int, s.memRead a ≠ 0 := by
  rw [← s.readString_eq_none_iff (uview (s.reg rd))]
  rcases exec_outs_cases_of_ne_r0 (s := s) nonzero with ⟨ws, found, written⟩ | ⟨gaveUp, hangs⟩
  · simp [found, written, emitAndAdvance]
  · exact iff_of_true hangs gaveUp

end

/-- Settles O23: the Words up to the first zero cell are the string that the read finds. -/
theorem outsEmitsTheString : Obligations.OutsEmitsTheString := by
  intro rd s n nonzero cells ending
  rw [exec_outs_of_readString nonzero (State.readString_eq_some cells ending)]
  exact emitAndAdvance_emittedAndAdvanced s _

/-- Settles O24: the addresses below 65536 reach every cell, so no zero among them is no zero at all. -/
theorem outsHangsOnlyWithoutAZeroCell : Obligations.OutsHangsOnlyWithoutAZeroCell := by
  intro rd s nonzero
  refine ⟨(exec_outs_eq_hang_iff nonzero).trans ⟨fun noZero a _ => noZero a, fun noZero b => ?_⟩, ?_⟩
  · obtain ⟨k, inMemory, same⟩ := s.exists_memRead_eq 0 b
    rw [same, Int.zero_add]
    exact noZero k inMemory
  · rintro ⟨a, zero⟩
    rcases exec_outs_cases_of_ne_r0 (s := s) nonzero with ⟨ws, _, written⟩ | ⟨_, hangs⟩
    · exact ⟨_, written⟩
    · exact absurd zero ((exec_outs_eq_hang_iff nonzero).1 hangs a)

/-- Settles O22. -/
theorem outAndOutnEmitTheWord : Obligations.OutAndOutnEmitTheWord := by
  intro rd s nonzero
  rw [exec_out_of_ne_r0 nonzero, exec_outn_of_ne_r0 nonzero]
  exact ⟨emitAndAdvance_emittedAndAdvanced s _, emitAndAdvance_emittedAndAdvanced s _⟩

/-- Settles O25: all three end as the sentinel does. -/
theorem outOfRegisterZeroHalts : Obligations.OutOfRegisterZeroHalts :=
  fun s => ⟨⟨_, rfl, s.haltedInPlace_setStatus⟩, ⟨_, rfl, s.haltedInPlace_setStatus⟩,
    ⟨_, rfl, s.haltedInPlace_setStatus⟩⟩

/-! ## Input (R185, R251) -/

/-- A call whose first instruction raises an error returns it and keeps the data (R141, R256). -/
theorem runLoop_raises {s : State} {i : Instr} {e : ExecError} (go : s.atBreakpoint = false)
    (word : recognise s.fetchWord = .ok i) (executes : exec i s.begun = .fault (.error e)) (n : Nat) :
    ∃ t, runLoop (n + 1) s = .returned (.fault e) t ∧ s.sameData t ∧ t.status = .running := by
  refine ⟨s.begun, runLoop_of_stops (r := .fault e) ?_, s.sameData_begun, rfl⟩
  show iterate s = .faulted e s.begun
  rw [iterate_eq_dispatch go word]
  simp only [dispatch, executes]

theorem exec_inp_of_cons (rd : Reg) {s : State} {v : Word} {rest : List Word} (waiting : s.inQ = v :: rest) :
    exec (.inp rd) s = .next (s.popInput.setReg rd v).advance := by
  rcases execIn_cases rd s with ⟨w, others, queue, taken⟩ | ⟨empty, _⟩
  · obtain ⟨rfl, _⟩ := List.cons_eq_cons.1 (waiting.symm.trans queue)
    exact taken
  · cases waiting.symm.trans empty

theorem exec_inp_of_nil (rd : Reg) {s : State} (empty : s.inQ = []) :
    exec (.inp rd) s = .fault (.error .inputExhausted) := by
  rcases execIn_cases rd s with ⟨w, others, queue, _⟩ | ⟨_, raised⟩
  · cases empty.symm.trans queue
  · exact raised

/-- `in` writes the head of the queue and leaves the rest waiting; nothing else but pc changes (R185). -/
theorem exec_inp_frame (rd : Reg) {s : State} {v : Word} {rest : List Word} (waiting : s.inQ = v :: rest) :
    ∃ t, exec (.inp rd) s = .next t ∧ s.wrote t rd v ∧ t.inQ = rest ∧ t.pc = (s.pc + 1) % 65536 ∧
      s.sameCells t ∧ t.out = s.out ∧ s.sameControl t :=
  ⟨_, exec_inp_of_cons rd waiting, s.popInput.wrote_setReg rd v, congrArg List.tail waiting, s.pcNext_eq,
    ⟨fun _ => rfl, fun _ => rfl⟩, rfl, rfl, rfl, rfl⟩

/-- Settles O20. -/
theorem inTakesTheHeadOfTheQueue : Obligations.InTakesTheHeadOfTheQueue :=
  fun rd s => ⟨fun _ _ waiting => exec_inp_frame rd waiting, fun empty => ⟨exec_inp_of_nil rd empty,
    fun n go word => runLoop_raises go word (exec_inp_of_nil rd (s := s.begun) empty) n⟩⟩

theorem execAll_cons_of_next {i : Instr} {s t : State} (executes : exec i s = .next t) (rest : List Instr) :
    execAll (i :: rest) s = execAll rest t := by
  rw [execAll, executes]

/-- Settles O21: each `in` writes its own register, and the later ones leave it alone. -/
theorem inputsArriveInOrder : Obligations.InputsArriveInOrder := by
  intro s a b c rest x y z waiting hx hy hz hxy hyz hxz
  obtain ⟨t₁, first, ⟨_, xNow, _⟩, waiting₁, _⟩ := exec_inp_frame x waiting
  obtain ⟨t₂, second, ⟨_, yNow, kept₂⟩, waiting₂, _⟩ := exec_inp_frame y waiting₁
  obtain ⟨t₃, third, ⟨_, zNow, kept₃⟩, waiting₃, _⟩ := exec_inp_frame z waiting₂
  refine ⟨t₃, ?runs, ?x, ?y, zNow hz, waiting₃⟩
  case runs => rw [execAll_cons_of_next first, execAll_cons_of_next second, execAll_cons_of_next third, execAll]
  case x => rw [kept₃ x hxz, kept₂ x hxy, xNow hx]
  case y => rw [kept₃ y hyz, yNow hy]

end Sys2Proof.Machine
end

section
/-! Immediate arithmetic (R200, R201): `addi` is the sum in Word arithmetic, and a shift count of either sign is a
logical shift of the Word by that many places. -/

namespace Sys2Proof.Machine

/-! ## The unit's results -/

theorem aluAddi_toNat (a : Word) (imm : Int) : ((aluAddi a imm).toNat : Int) = (a.toNat + imm) % 65536 :=
  uview_toWord _

/-- A count that is not positive divides the unsigned view, so zeros come in at the top (D10). -/
theorem aluShift_zeros_neg (a : Word) (n : Nat) : aluShift .zeros a (-n) = a >>> n := by
  have count : (-(-(n : Int))).toNat = n := by omega
  have quotient : uview a / 2 ^ n = ((a >>> n).toNat : Int) := by
    rw [BitVec.toNat_ushiftRight, Nat.shiftRight_eq_div_pow, uview]
    norm_cast
  rw [aluShift, if_neg (by omega), count, quotient]
  exact toWord_uview (a >>> n)

/-- A positive count multiplies the unsigned view; the count 0 is the other branch's, and moves nothing either. -/
theorem aluShift_zeros_natCast (a : Word) (n : Nat) : aluShift .zeros a n = a <<< n := by
  rcases Nat.eq_zero_or_pos n with rfl | positive
  · calc aluShift .zeros a (-(0 : Nat))
      _ = a >>> 0 := aluShift_zeros_neg a 0
      _ = a <<< 0 := by rw [BitVec.ushiftRight_zero, BitVec.shiftLeft_zero]
  · have product : uview a * 2 ^ n = ((a.toNat <<< n : Nat) : Int) := by
      rw [Nat.shiftLeft_eq, uview]
      norm_cast
    rw [aluShift, if_pos (by omega), Int.toNat_natCast, product, toWord, BitVec.ofInt_natCast]
    rfl

/-! ## The instructions -/

section
variable (rd rs1 : Reg) (s : State)

theorem exec_addi (imm : Int) : exec (.addi rd rs1 imm) s = writeBack s rd (aluAddi (s.reg rs1) imm) := rfl

theorem exec_shf_natCast (n : Nat) : exec (.shf rd rs1 n) s = writeBack s rd (s.reg rs1 <<< n) :=
  congrArg (writeBack s rd) (aluShift_zeros_natCast _ n)

theorem exec_shf_neg (n : Nat) : exec (.shf rd rs1 (-n)) s = writeBack s rd (s.reg rs1 >>> n) :=
  congrArg (writeBack s rd) (aluShift_zeros_neg _ n)

end

/-- Settles O29: the bits of the two shifts, where a count of 16 or more needs no case of its own. -/
theorem shfMovesEveryBit : Obligations.ShfMovesEveryBit := by
  intro rd rs1 n s
  rw [exec_shf_natCast, exec_shf_neg]
  constructor
  case left =>
    obtain ⟨t, moved, framed⟩ := writeBack_wroteAndAdvanced s rd (s.reg rs1 <<< n)
    refine ⟨t, _, moved, framed, fun k hk => ?_⟩
    rw [BitVec.getLsbD_shiftLeft, decide_eq_true hk, Bool.true_and, ← decide_not, decide_eq_decide.2 Nat.not_lt]
  case right =>
    obtain ⟨t, moved, framed⟩ := writeBack_wroteAndAdvanced s rd (s.reg rs1 >>> n)
    refine ⟨t, _, moved, framed, fun k _ => ?_⟩
    rw [BitVec.getLsbD_ushiftRight, Nat.add_comm]

/-- Settles O28: the result read as a number is the sum reduced, and `OPMAP(addi)` is 3. -/
theorem addiAddsTheSignedImmediate : Obligations.AddiAddsTheSignedImmediate := by
  intro rd rs1 imm s
  obtain ⟨t, added, framed⟩ := writeBack_wroteAndAdvanced s rd (aluAddi (s.reg rs1) imm)
  rw [exec_addi]
  exact ⟨⟨t, _, added, framed, aluAddi_toNat _ _⟩, Imm6Group.addi.encodeWith config.codec rd rs1 imm⟩

end Sys2Proof.Machine
end

section
/-! Load and store (R210 to R212): both reach the one cell that the effective address selects, the load to copy it into
rd and the store to replace its data part. -/

namespace Sys2Proof.Machine

section
variable (rd rs1 : Reg) (imm : Int) (s : State)

/-- A load reads the same cell whether or not its address is reduced first (R51, R210). -/
theorem exec_lw :
    exec (.lw rd rs1 imm) s = writeBack s rd (s.memRead (((s.reg rs1).toNat + imm) % 65536)) :=
  congrArg (writeBack s rd) (s.memRead_congr (Int.emod_emod _ _).symm)

theorem exec_sw : exec (.sw rd rs1 imm) s = .next (s.memWrite (s.effAddr rs1 imm) (s.reg rd)).advance := rfl

end

/-- Settles O30. -/
theorem lwLoadsTheCell : Obligations.LwLoadsTheCell := by
  intro rd rs1 imm s
  rw [exec_lw]
  exact ⟨writeBack_wroteAndAdvanced s rd _, Imm6Group.lw.encodeWith config.codec rd rs1 imm⟩

/-- Settles O31: the store is one write to memory, which a read sees at its own address only. -/
theorem swStoresTheCell : Obligations.SwStoresTheCell := by
  intro rd rs1 imm s
  have reads (a : Int) := s.memRead_memWrite (s.effAddr rs1 imm) a (s.reg rd)
  refine ⟨⟨_, exec_sw rd rs1 imm s, ?stored, fun a other => ?kept, fun _ => rfl, s.pcNext_eq, fun _ => rfl,
    ⟨rfl, rfl⟩, rfl, rfl, rfl⟩, addrOf_eq _, Imm6Group.sw.encodeWith config.codec rd rs1 imm⟩
  case stored => rw [State.advance_memRead, reads, if_pos rfl]
  case kept => rw [State.advance_memRead, reads, if_neg other]

end Sys2Proof.Machine
end

section
/-! Load immediates (R220 to R222): `lli` fills the whole register, `lui` then replaces its high byte, so the two of
`lwi` leave the low byte of the constant from the one and its high byte from the other. -/

namespace Sys2Proof.Machine

/-! ## The values written -/

/-- A signed immediate of 8 bits is in the range of a Word, so nothing of it is lost (R220). -/
theorem lliValue_toInt {imm : Int} (fits : fitsSigned 8 imm = true) : (lliValue imm).toInt = imm := by
  simp only [fitsSigned, Bool.and_eq_true, decide_eq_true_eq] at fits
  rw [lliValue, toWord, BitVec.toInt_ofInt]
  exact Int.bmod_eq_of_le (by omega) (by omega)

theorem lliValue_toNat (imm : Int) : ((lliValue imm).toNat : Int) = imm % 65536 := uview_toWord imm

/-- The two halves share no bit, so joining them is adding them (R221). -/
theorem luiValue_toNat (old : Word) (imm : Int) :
    ((luiValue old imm).toNat : Int) = (imm % 256) * 256 + old.toNat % 256 := by
  obtain ⟨byte, hbyte⟩ := Int.eq_ofNat_of_zero_le (Int.emod_nonneg imm (b := 256) (by decide))
  have high : (toWord (imm * 256)).toNat = 2 ^ 8 * byte := by
    have shifted : ((toWord (imm * 256)).toNat : Int) = imm * 256 % 65536 := uview_toWord _
    omega
  have low : (old &&& (0x00FF : Word)).toNat = old.toNat % 2 ^ 8 := Nat.and_two_pow_sub_one_eq_mod old.toNat 8
  have joined : (luiValue old imm).toNat = 2 ^ 8 * byte + old.toNat % 2 ^ 8 := by
    rw [luiValue, BitVec.toNat_or, high, low, Nat.or_comm,
      Nat.two_pow_add_eq_or_of_lt (Nat.mod_lt _ (Nat.two_pow_pos 8))]
  omega

/-! ## The instructions -/

section
variable (rd : Reg) (imm : Int) (s : State)

theorem exec_lli : exec (.lli rd imm) s = writeBack s rd (lliValue imm) := rfl

theorem exec_lui : exec (.lui rd imm) s = writeBack s rd (luiValue (s.reg rd) imm) := rfl

end

/-- Settles O33: the value is exact for an immediate in range, and `OPMAP(lli)` is 7. -/
theorem lliSignExtends : Obligations.LliSignExtends := by
  intro rd imm s
  refine ⟨fun wellFormed => ?value, Imm8Group.lli.encodeWith config.codec rd imm⟩
  case value =>
    obtain ⟨t, loaded, framed⟩ := writeBack_wroteAndAdvanced s rd (lliValue imm)
    exact ⟨t, _, (exec_lli rd imm s).trans loaded, framed,
      lliValue_toInt ((Imm8Group.lli.wellFormed rd imm).symm.trans wellFormed)⟩

/-- Settles O34: the value written is the immediate above the old low byte, and `OPMAP(lui)` is 8. -/
theorem luiReplacesTheHighByte : Obligations.LuiReplacesTheHighByte := by
  intro rd imm s
  obtain ⟨t, loaded, framed⟩ := writeBack_wroteAndAdvanced s rd (luiValue (s.reg rd) imm)
  exact ⟨⟨t, _, (exec_lui rd imm s).trans loaded, framed, luiValue_toNat _ _⟩,
    Imm8Group.lui.encodeWith config.codec rd imm⟩

/-! ## The two words of `lwi` (R114, R222) -/

theorem immByte_emod (c : Int) (k : Nat) : immByte c k % 256 = c / 2 ^ k % 256 :=
  calc immByte c k % 256
    _ = ((BitVec.ofInt 8 (immByte c k)).toNat : Int) := (toNat_ofInt_eq_emod 8 _).symm
    _ = ((BitVec.ofInt 8 (c / 2 ^ k)).toNat : Int) := by rw [immByte, ofInt_sext]
    _ = c / 2 ^ k % 256 := toNat_ofInt_eq_emod 8 _

theorem fitsSigned_immByte (c : Int) (k : Nat) : fitsSigned 8 (immByte c k) = true := fitsSigned_sext _

theorem wellFormed_of_mem_expand_lwi (rd : Reg) (c : Int) :
    ∀ i ∈ (PseudoOp.lwi rd c).expand, i.wellFormed = true := by
  rw [PseudoOp.expand, List.forall_mem_cons, List.forall_mem_singleton]
  exact ⟨fitsSigned_immByte c 0, fitsSigned_immByte c 8⟩

/-- The sign that `lli` extends into the high byte is what `lui` replaces, so the two bytes make up the constant. -/
theorem luiValue_lliValue_immByte {c : Int} (nonneg : 0 ≤ c) (small : c < 65536) :
    ((luiValue (lliValue (immByte c 0)) (immByte c 8)).toNat : Int) = c := by
  have low := immByte_emod c 0
  have high := immByte_emod c 8
  rw [luiValue_toNat, lliValue_toNat]
  omega

/-- Settles O35: `lui` reads the register that `lli` wrote, and neither touches another. -/
theorem lwiLoadsEveryConstant : Obligations.LwiLoadsEveryConstant := by
  intro rd c s nonzero nonneg small
  obtain ⟨t, first, ⟨_, lowLoaded, kept⟩, advanced, _⟩ := writeBack_wroteAndAdvanced s rd (lliValue (immByte c 0))
  obtain ⟨u, second, ⟨_, bothLoaded, kept'⟩, advanced', _⟩ :=
    writeBack_wroteAndAdvanced t rd (luiValue (t.reg rd) (immByte c 8))
  refine ⟨wellFormed_of_mem_expand_lwi rd c, u, ?runs, ?value, fun r other => ?others, ?pc⟩
  case runs =>
    rw [PseudoOp.expand, execAll_cons_of_next ((exec_lli ..).trans first),
      execAll_cons_of_next ((exec_lui ..).trans second), execAll]
  case value => rw [bothLoaded nonzero, lowLoaded nonzero, luiValue_lliValue_immByte nonneg small]
  case others => rw [kept' r other, kept r other]
  case pc => rw [advanced', advanced, Nat.mod_add_mod]

end Sys2Proof.Machine
end

section
/-! Branches (R230 to R236): each of the six conditions on the signed view as a range of the Word, and the one move
they all make. -/

namespace Sys2Proof.Machine

/-! ## The conditions as ranges of the Word -/

section
variable (v : Word)

/-- The signed view of the two halves of the Words (R9). -/
theorem toInt_cases : v.toNat < 0x8000 ∧ v.toInt = v.toNat ∨ 0x8000 ≤ v.toNat ∧ v.toInt = v.toNat - 65536 := by
  have range := v.isLt
  rw [BitVec.toInt_eq_toNat_cond]
  split <;> omega

theorem condEq_toInt_iff : condEq v.toInt = true ↔ v.toNat = 0 := by
  have halves := toInt_cases v
  rw [condEq, decide_eq_true_iff]
  omega

theorem condNe_toInt_iff : condNe v.toInt = true ↔ ¬ v.toNat = 0 := by
  rw [← condEq_toInt_iff, condNe, condEq, decide_eq_true_iff, decide_eq_true_iff]

theorem condGt_toInt_iff : condGt v.toInt = true ↔ 1 ≤ v.toNat ∧ v.toNat ≤ 0x7FFF := by
  have halves := toInt_cases v
  rw [condGt, decide_eq_true_iff]
  omega

theorem condGe_toInt_iff : condGe v.toInt = true ↔ v.toNat ≤ 0x7FFF := by
  have halves := toInt_cases v
  rw [condGe, decide_eq_true_iff]
  omega

theorem condLt_toInt_iff : condLt v.toInt = true ↔ 0x8000 ≤ v.toNat := by
  have halves := toInt_cases v
  have range := v.isLt
  rw [condLt, decide_eq_true_iff]
  omega

theorem condLe_toInt_iff : condLe v.toInt = true ↔ v.toNat = 0 ∨ 0x8000 ≤ v.toNat := by
  have halves := toInt_cases v
  have range := v.isLt
  rw [condLe, decide_eq_true_iff]
  omega

end

/-! ## The instructions -/

/-- A branch goes to its target where its condition holds, said as any proposition, else to the next cell (R230). -/
theorem Branch.exec_movedTo {make : Reg → Int → Instr} {cond : Int → Bool} (branch : Branch make cond) (rd : Reg)
    (imm : Int) (s : State) {taken : Prop} [Decidable taken] (tests : cond (s.reg rd).toInt = true ↔ taken) :
    ∃ t, exec (make rd imm) s = .next t ∧
      s.movedTo t (if taken then ((s.pc : Int) + 1 + imm) % 65536 else ((s.pc : Int) + 1) % 65536) := by
  rw [branch.exec_eq, ← if_congr tests rfl rfl]
  exact branchIf_movedTo _ imm s

/-- Settles O37: each condition is its range of Words, and `OPMAP` numbers the four 11 to 14. -/
theorem orderedBranchesTestTheSignedValue : Obligations.OrderedBranchesTestTheSignedValue :=
  fun rd imm s => ⟨Branch.bgt.exec_movedTo rd imm s (condGt_toInt_iff _),
    Branch.bge.exec_movedTo rd imm s (condGe_toInt_iff _), Branch.blt.exec_movedTo rd imm s (condLt_toInt_iff _),
    Branch.ble.exec_movedTo rd imm s (condLe_toInt_iff _), Imm8Group.bgt.encodeWith config.codec rd imm,
    Imm8Group.bge.encodeWith config.codec rd imm, Imm8Group.blt.encodeWith config.codec rd imm,
    Imm8Group.ble.encodeWith config.codec rd imm⟩

/-- Settles O36: `bne` is taken where `beq` is not. -/
theorem beqBneTestForZero : Obligations.BeqBneTestForZero := by
  intro rd imm s
  have bne := Branch.bne.exec_movedTo rd imm s (condNe_toInt_iff _)
  simp only [ite_not] at bne
  exact ⟨Branch.beq.exec_movedTo rd imm s (condEq_toInt_iff _), bne, Imm8Group.beq.encodeWith config.codec rd imm,
    Imm8Group.bne.encodeWith config.codec rd imm⟩

end Sys2Proof.Machine
end

section
/-! Failures (R141, R188, R250 to R253, D9, D11): the three ways an instruction fails to complete, and the decode error
of an illegal word. -/

namespace Sys2Proof.Machine

/-- Why the instruction `i` does not complete at `s`: one constructor for each failure the spec lists.
`exec_eq_fault_iff` ties it to `exec`. -/
inductive Fails (i : Instr) (s : State) : Fault → Prop where
  /-- `in` found the queue empty (R251) -/
  | inputExhausted (rd : Reg) (isIn : i = .inp rd) (empty : s.inQ = []) : Fails i s (.error .inputExhausted)
  /-- `div` or `mod` found a zero divisor (R253) -/
  | divideByZero (rd rs1 rs2 : Reg) (divides : i = .div rd rs1 rs2 ∨ i = .mod rd rs1 rs2) (zero : s.reg rs2 = 0) :
      Fails i s (.error .divideByZero)
  /-- `outs` found no zero cell (R188) -/
  | outsHang (rd : Reg) (isOuts : i = .outs rd) (nonzero : rd ≠ .r0) (noZero : ∀ a : Int, s.memRead a ≠ 0) :
      Fails i s .outsHang

/-! ## A zero divisor (R253) -/

theorem aluDiv_zero (a : Word) : aluDiv a 0 = .error .divideByZero := if_pos ((sview_eq_zero_iff 0).2 rfl)

theorem aluMod_zero (a : Word) : aluMod a 0 = .error .divideByZero := if_pos ((sview_eq_zero_iff 0).2 rfl)

section
variable (rd rs1 : Reg) {rs2 : Reg} {s : State} (zero : s.reg rs2 = 0)
include zero

theorem exec_div_of_zero : exec (.div rd rs1 rs2) s = .fault (.error .divideByZero) := by
  show writeBackOrRaise s rd (aluDiv (s.reg rs1) (s.reg rs2)) = _
  rw [zero, aluDiv_zero]
  rfl

theorem exec_mod_of_zero : exec (.mod rd rs1 rs2) s = .fault (.error .divideByZero) := by
  show writeBackOrRaise s rd (aluMod (s.reg rs1) (s.reg rs2)) = _
  rw [zero, aluMod_zero]
  rfl

end

/-! ## All failures -/

section
variable {i : Instr} {s : State} {f : Fault}

theorem Fails.exec_eq (fails : Fails i s f) : exec i s = .fault f := by
  cases fails with
  | inputExhausted rd isIn empty =>
    subst isIn
    exact exec_inp_of_nil rd empty
  | divideByZero rd rs1 rs2 divides zero =>
    rcases divides with rfl | rfl
    · exact exec_div_of_zero rd rs1 zero
    · exact exec_mod_of_zero rd rs1 zero
  | outsHang rd isOuts nonzero noZero =>
    subst isOuts
    exact (exec_outs_eq_hang_iff nonzero).2 noZero

/-- `out` and `outn` complete with either ending: the halt convention or the event (R186). -/
theorem haltOrEmit_completes (rd : Reg) (s : State) (e : OutEvent) :
    ∃ t, (if rd = .r0 then haltHere s else emitAndAdvance s e) = .next t := by
  split
  · exact ⟨_, rfl⟩
  · exact ⟨_, rfl⟩

/-- Every instruction completes or fails in one of the three ways. -/
theorem exec_completes_or_fails (i : Instr) (s : State) : (∃ t, exec i s = .next t) ∨ ∃ f, Fails i s f := by
  cases i with
  | add | sub | and | or | not | mul | jalr | addi | shf | lw | sw | lli | lui | halt => exact .inl ⟨_, rfl⟩
  | beq | bne | bgt | bge | blt | ble =>
    obtain ⟨t, moves, _⟩ := branchIf_movedTo _ _ s
    exact .inl ⟨t, moves⟩
  | out rd | outn rd => exact .inl (haltOrEmit_completes rd s _)
  | inp rd =>
    rcases execIn_cases rd s with ⟨_, _, _, taken⟩ | ⟨empty, _⟩
    · exact .inl ⟨_, taken⟩
    · exact .inr ⟨_, .inputExhausted rd rfl empty⟩
  | div rd rs1 rs2 =>
    by_cases zero : s.reg rs2 = 0
    · exact .inr ⟨_, .divideByZero rd rs1 rs2 (.inl rfl) zero⟩
    · exact .inl ⟨_, exec_div rd rs1 zero⟩
  | mod rd rs1 rs2 =>
    by_cases zero : s.reg rs2 = 0
    · exact .inr ⟨_, .divideByZero rd rs1 rs2 (.inr rfl) zero⟩
    · exact .inl ⟨_, exec_mod rd rs1 zero⟩
  | outs rd =>
    rcases execOuts_cases rd s with ⟨_, halts⟩ | ⟨_, _, _, emits⟩ | ⟨nonzero, gaveUp, _⟩
    · exact .inl ⟨_, halts⟩
    · exact .inl ⟨_, emits⟩
    · exact .inr ⟨_, .outsHang rd rfl nonzero ((s.readString_eq_none_iff _).1 gaveUp)⟩

theorem exec_eq_fault_iff : exec i s = .fault f ↔ Fails i s f := by
  refine ⟨fun faults => ?_, Fails.exec_eq⟩
  rcases exec_completes_or_fails i s with ⟨t, completes⟩ | ⟨g, fails⟩
  · cases faults.symm.trans completes
  · cases faults.symm.trans fails.exec_eq
    exact fails

theorem exec_ne_refused (i : Instr) (s : State) (r : Refusal) : exec i s ≠ .refused r := by
  rcases exec_completes_or_fails i s with ⟨t, completes⟩ | ⟨f, fails⟩
  · simp [completes]
  · simp [fails.exec_eq]

end

/-- Settles O39: each clause is one constructor of `Fails`, and `InvalidOpcodeError` has none. -/
theorem instructionsFailOnlyAsListed : Obligations.InstructionsFailOnlyAsListed := by
  intro i s
  simp only [ne_eq, exec_eq_fault_iff]
  refine ⟨exec_ne_refused i s, ⟨?input, ?emptyQueue⟩, ⟨?divide, ?zeroDivisor⟩, ⟨?hang, ?noZeroCell⟩, nofun⟩
  case input => exact fun | .inputExhausted rd isIn empty => ⟨⟨rd, isIn⟩, empty⟩
  case emptyQueue => exact fun ⟨⟨rd, isIn⟩, empty⟩ => .inputExhausted rd isIn empty
  case divide => exact fun | .divideByZero rd rs1 rs2 divides zero => ⟨rd, rs1, rs2, divides, zero⟩
  case zeroDivisor => exact fun ⟨rd, rs1, rs2, divides, zero⟩ => .divideByZero rd rs1 rs2 divides zero
  case hang => exact fun | .outsHang rd isOuts nonzero noZero => ⟨⟨rd, isOuts, nonzero⟩, noZero⟩
  case noZeroCell => exact fun ⟨⟨rd, isOuts, nonzero⟩, noZero⟩ => .outsHang rd isOuts nonzero noZero

/-! ## Runs that fail (R141, R252, R253) -/

/-- Settles O18: a begun state has the registers of the state before, so the divisor is zero there too. -/
theorem zeroDivisorFaults : Obligations.ZeroDivisorFaults := by
  intro rd rs1 rs2 s zero
  refine ⟨exec_div_of_zero rd rs1 zero, exec_mod_of_zero rd rs1 zero, fun n go word => ?run⟩
  case run =>
    rcases word with isDiv | isMod
    · exact runLoop_raises go isDiv (exec_div_of_zero rd rs1 (s := s.begun) zero) n
    · exact runLoop_raises go isMod (exec_mod_of_zero rd rs1 (s := s.begun) zero) n

/-- Settles O43: step and run are both the one iteration that fails at decode. -/
theorem illegalWordFaultsAtDecode : Obligations.IllegalWordFaultsAtDecode :=
  fun _ _ go word => ⟨step_of_illegal go word,
    runLoop_of_stops (r := .fault .invalidOpcode) (iterate_eq_illegal go word)⟩

end Sys2Proof.Machine
end

section
/-! Reset (R40, R290, R292, D16, D17): what it installs, and that of a machine just powered on nothing else is left. -/

namespace Sys2Proof.Machine

theorem Regs.get_zero (r : Reg) : Regs.zero.get r = 0 := by cases r <;> rfl

/-- Memory data and breakpoint bits are all that a reset keeps, and power-on fixes them (R292). -/
theorem resetCall_of_poweredOn {s : State} (fresh : s.poweredOn) : resetCall [] s = State.reset := by
  obtain ⟨noCell, noBreakpoint⟩ := fresh
  rw [resetCall, noCell, noBreakpoint]
  rfl

/-- Settles O51. -/
theorem resetInstallsTheResetValues : Obligations.ResetInstallsTheResetValues := by
  refine ⟨fun inputs s t done => ?values, fun s fresh => congrArg Answer.done (resetCall_of_poweredOn fresh)⟩
  case values =>
    obtain rfl : resetCall inputs s = t := Answer.done.inj done
    exact ⟨Regs.get_zero, rfl, rfl, rfl, rfl, rfl, fun _ => rfl, fun _ => rfl⟩

end Sys2Proof.Machine
end
